-- ==== Sys2Proof/Word.lean ====
section
/-! DEFINITION. The word types of the codec block: the byte (R10, R51) and the 16-bit word (R30). -/

namespace Sys2Proof

/-- A byte: 8 bits, read as unsigned unless a rule says "signed" (R10). It is the only unit any buffer
is accessed in (R51, R52). -/
abbrev Byte := BitVec 8

/-- A 16-bit unsigned number: the margin, a line length, errorInfoSet, phaseNumber (R30). -/
abbrev Half := BitVec 16

end Sys2Proof
end

