-- ==== Sys2Proof/Config.lean ====
section
/-! DEFINITION. What is fixed for the machine: the parameters of R7, and the two free values of the model
(SIB_SIZE, the cursor after a failed SF.PARSE), each an opaque constant that no proof can evaluate. -/

namespace Sys2Proof

/-- `LINE_BYTES`: bytes in a normalised raster line (R7). -/
def Config.lineBytes : Nat := 48

/-- `PB_OUT_MAX`: the largest PBE output (R7). -/
def Config.pbOutMax : Nat := 49

/-- `GUARD_LIMIT`: the overflow guard fires when the cumulative length would exceed it (R7, R123).
UNVERIFIED: the spec's decision D3 on conflict C2, which the model follows (log entry 14). -/
def Config.guardLimit : Nat := 49

/-- `FALLBACK_CTRL`: the control byte of the fallback (R7, R124). -/
def Config.fallbackCtrl : Byte := 0x2F#8

/-- `CF_OUT_MAX`: the hard cap of a command frame (R7). -/
def Config.cfOutMax : Nat := 64

/-- `RASTER_MAX`: the longest line `CF.RASTER` accepts (R7, R148). -/
def Config.rasterMax : Nat := 61

/-- `SF_BYTES`: bytes in a status frame (R7). -/
def Config.sfBytes : Nat := 32

/-- `SPAN_MAX`: the largest span a control byte can express, never reached (R7, R114). -/
def Config.spanMax : Nat := 128

/-- FREE VALUE (R7 `SIB_SIZE`, D24: OPEN, any value of at least 32): how many bytes SFD's input buffer has
beyond the 32 it must have. No body: no proof can see it (log entry 4). -/
opaque Config.sibSpare : Nat

/-- `SIB_SIZE`: the size of SFD's input buffer, at least 32 (R7, R50). -/
def Config.sibSize : Nat := Config.sibSpare + 32

/-- FREE VALUE (R184, D8, U11 `SFD_CUR_ON_FAIL`): the draws for the read cursor after a failed `SF.PARSE`,
one for each failure, counted by `State.draws`. The operation that uses a draw keeps it inside the range R184
states (log entry 5). -/
opaque Config.sfdCurOnFail : Nat → Nat

end Sys2Proof
end

