-- ==== Sys2Proof/Syntax.lean ====
section
/-! DEFINITION. The operations as syntax: the closed operand types of the spec's data model, `Instr` with one
constructor for each row of spec/opcode_table.json, and `Request`, what the request port carries. -/

namespace Sys2Proof

/-- CommandMode, a closed enumeration (R82): ESC_P, RASTER. -/
inductive CommandMode where
  | escP
  | raster
deriving DecidableEq, Repr

/-- CompressionMode, a closed enumeration (R83): NONE, TIFF (PackBits). -/
inductive CompressionMode where
  | none
  | tiff
deriving DecidableEq, Repr

/-- PaperKind, a closed enumeration (R84). -/
inductive PaperKind where
  | unknown
  | laminate
  | lettering
  | nonLaminate
  | hg
  | sz
deriving DecidableEq, Repr

/-- A subset of the Mode flags {AUTO_TAPE_CUT, MIRROR} (R80): one truth value a named flag. -/
structure ModeSet where
  autoTapeCut : Bool
  mirror      : Bool
deriving DecidableEq, Repr

/-- A subset of the EnhancedMode flags (R81): one truth value a named flag. -/
structure EnhancedSet where
  halfCut         : Bool
  nonChainPrint   : Bool
  cutOnChainPrint : Bool
  finePrint       : Bool
  copyPrint       : Bool
deriving DecidableEq, Repr

/-- An enumeration or flag-set operand as a request port carries it (R35, R155): a member of the closed
set, or, at a raw-byte port only, a byte. -/
inductive PortOperand (α : Type) where
  | member (v : α)
  | rawByte (b : Byte)
deriving DecidableEq, Repr

/-- The closed list of the sixteen operations a host can request (R6). -/
inductive Operation where
  | cfVoid
  | cfStatusReq
  | cfInit
  | cfSetMode
  | cfSetMargin
  | cfSetEnh
  | cfSwitchMode
  | cfRaster
  | cfZeroRaster
  | cfPrintPreCut
  | cfPrint
  | cfPrintEvac
  | cfSelComp
  | cfPrintInfo
  | pbEncode
  | sfParse
deriving DecidableEq, Repr

/-- One constructor for each row of spec/opcode_table.json: the sixteen operations of R6 with the operands of
R35, and the three PackBits record rows, whose rules (R120, R121, R124) are the emissions PBE makes inside
`PB.ENCODE` and whose `op_sel` is null: no host request names them. -/
inductive Instr where
  /-- `CF.VOID count` (R141): a 32-bit two's complement number at the port. -/
  | cfVoid (count : BitVec 32)
  /-- `CF.STATUSREQ` (R142). -/
  | cfStatusReq
  /-- `CF.INIT` (R143). -/
  | cfInit
  /-- `CF.SETMODE modes` (R144). -/
  | cfSetMode (modes : PortOperand ModeSet)
  /-- `CF.SETMARGIN margin` (R145). -/
  | cfSetMargin (margin : Half)
  /-- `CF.SETENH enh` (R146). -/
  | cfSetEnh (enh : PortOperand EnhancedSet)
  /-- `CF.SWITCHMODE cmode` (R147). -/
  | cfSwitchMode (cmode : PortOperand CommandMode)
  /-- `CF.RASTER comp, line` (R148); the line is delivered through the stream CFI. -/
  | cfRaster (comp : PortOperand CompressionMode) (line : List Byte)
  /-- `CF.ZERORASTER` (R149). -/
  | cfZeroRaster
  /-- `CF.PRINTPRECUT` (R150). -/
  | cfPrintPreCut
  /-- `CF.PRINT` (R151). -/
  | cfPrint
  /-- `CF.PRINTEVAC` (R152). -/
  | cfPrintEvac
  /-- `CF.SELCOMP comp` (R153). -/
  | cfSelComp (comp : PortOperand CompressionMode)
  /-- `CF.PRINTINFO kind, width, length, recovery, lowPower` (R154). -/
  | cfPrintInfo (kind : Option (PortOperand PaperKind)) (width length : Option Byte)
      (recovery : Bool) (lowPower : Byte)
  /-- `PB.ENCODE in` (R110, R126); the input is delivered through the stream PBI. -/
  | pbEncode (input : List Byte)
  /-- `PB.REC.RUN`: `EmitRun(N, v)` (R120). -/
  | pbRecRun (n : Nat) (v : Byte)
  /-- `PB.REC.LIT`: `EmitLit(N, a)` (R121). -/
  | pbRecLit (n a : Nat)
  /-- `PB.FALLBACK`: `Fallback()` (R124). -/
  | pbFallback
  /-- `SF.PARSE` (R170, R186): no operand beyond the state SIB, CUR, LIM. -/
  | sfParse
deriving DecidableEq, Repr

/-- An emission of PBE's own sequencer (R120, R121, R124): the rows of the table whose `op_sel` is null. -/
inductive Emission where
  | run (n : Nat) (v : Byte)
  | lit (n a : Nat)
  | fallback
deriving DecidableEq, Repr

/-- What the host presents to the block as one transaction (R13): a request at the numbered port, the `op_sel`
byte of R95 first and then the operands of R35 (DESIGN CHOICE, log entry 1). It can name the sixteen operations of R6
and nothing else. -/
inductive Request where
  | numbered (bytes : List Byte)
deriving DecidableEq, Repr

end Sys2Proof
end

