-- ==== Sys2Proof/Machine/Operands.lean ====
section
/-! DEFINITION. Every operand form: the wire value of each closed enumeration and flag set and its reading back
from a raw byte (R80 to R85, R155), the clamp of CF.VOID (R141), the halves of a 16-bit number (R86), the signed
reading of a byte (R10), and the character constants of the layouts (R71, R72). -/

namespace Sys2Proof

/-! ### Bytes (R10, R53, R86) -/

/-- `sbyte(u)`: the two's complement reading of a byte (R10). -/
def sbyte (u : Byte) : Int := if u.toNat ≤ 127 then (u.toNat : Int) else (u.toNat : Int) - 256

/-- `ubyte(v) = v mod 256` (R10). -/
def ubyte (v : Int) : Byte := BitVec.ofInt 8 v

/-- `x[7:0]` of a 16-bit number (R86). -/
def Half.low (x : Half) : Byte := x.extractLsb' 0 8

/-- `x[15:8]` of a 16-bit number (R86). -/
def Half.high (x : Half) : Byte := x.extractLsb' 8 8

/-- The 16-bit number with these two bytes: `high * 256 + low` (R90, R178, R181). -/
def Half.ofBytes (high low : Byte) : Half := high ++ low

/-! ### Character constants (R71, R72) -/

/-- ESC (R71). -/
def Wire.esc : Byte := 0x1B#8
/-- `'@'` (R72). -/
def Wire.atSign : Byte := 0x40#8
/-- `'G'` (R72). -/
def Wire.capG : Byte := 0x47#8
/-- `'K'` (R72). -/
def Wire.capK : Byte := 0x4B#8
/-- `'M'` (R72). -/
def Wire.capM : Byte := 0x4D#8
/-- `'S'` (R72). -/
def Wire.capS : Byte := 0x53#8
/-- `'Z'` (R72). -/
def Wire.capZ : Byte := 0x5A#8
/-- `'a'` (R72). -/
def Wire.lowA : Byte := 0x61#8
/-- `'c'` (R72). -/
def Wire.lowC : Byte := 0x63#8
/-- `'d'` (R72). -/
def Wire.lowD : Byte := 0x64#8
/-- `'i'` (R72). -/
def Wire.lowI : Byte := 0x69#8

/-! ### Closed enumerations (R82, R83, R84) -/

/-- The CommandMode raw value (R82). -/
def CommandMode.wire : CommandMode → Byte
  | .escP => 0x00#8
  | .raster => 0x01#8

/-- The CommandMode a raw byte is the wire value of, if any (R82, R155). -/
def CommandMode.ofWire (b : Byte) : Option CommandMode :=
  if b = 0x00#8 then some .escP else if b = 0x01#8 then some .raster else none

/-- The CompressionMode wire value (R83). -/
def CompressionMode.wire : CompressionMode → Byte
  | .none => 0x00#8
  | .tiff => 0x02#8

/-- The CompressionMode a raw byte is the wire value of, if any (R83, R155). -/
def CompressionMode.ofWire (b : Byte) : Option CompressionMode :=
  if b = 0x00#8 then some .none else if b = 0x02#8 then some .tiff else Option.none

/-- The PaperKind wire value (R84). -/
def PaperKind.wire : PaperKind → Byte
  | .unknown => 0x00#8
  | .laminate => 0x01#8
  | .lettering => 0x02#8
  | .nonLaminate => 0x03#8
  | .hg => 0x09#8
  | .sz => 0x10#8

/-- The PaperKind a raw byte is the wire value of, if any (R84, R155). -/
def PaperKind.ofWire (b : Byte) : Option PaperKind :=
  if b = 0x00#8 then some .unknown
  else if b = 0x01#8 then some .laminate
  else if b = 0x02#8 then some .lettering
  else if b = 0x03#8 then some .nonLaminate
  else if b = 0x09#8 then some .hg
  else if b = 0x10#8 then some .sz
  else none

/-! ### Flag sets (R80, R81) -/

/-- A mask when its flag is a member, else no bit. -/
def flagMask (member : Bool) (mask : Byte) : Byte := if member then mask else 0#8

/-- `<mode-bits>`: the OR of the masks of the members (R80, R144). -/
def ModeSet.wire (m : ModeSet) : Byte :=
  flagMask m.autoTapeCut 0x40#8 ||| flagMask m.mirror 0x80#8

/-- The set of Mode flags a raw byte stands for; none where a bit of 0 to 5 is set (R80, R155). -/
def ModeSet.ofWire (b : Byte) : Option ModeSet :=
  if b &&& 0x3F#8 = 0#8 then some { autoTapeCut := b.getLsbD 6, mirror := b.getLsbD 7 } else none

/-- `<enhanced-bits>`: the OR of the masks of the members (R81, R146). -/
def EnhancedSet.wire (e : EnhancedSet) : Byte :=
  flagMask e.halfCut 0x04#8 ||| flagMask e.nonChainPrint 0x08#8 ||| flagMask e.cutOnChainPrint 0x20#8 |||
    flagMask e.finePrint 0x40#8 ||| flagMask e.copyPrint 0x80#8

/-- The set of EnhancedMode flags a raw byte stands for; none where a reserved bit 0, 1 or 4 is set (R81, R155). -/
def EnhancedSet.ofWire (b : Byte) : Option EnhancedSet :=
  if b &&& 0x13#8 = 0#8 then
    some { halfCut := b.getLsbD 2, nonChainPrint := b.getLsbD 3, cutOnChainPrint := b.getLsbD 5,
           finePrint := b.getLsbD 6, copyPrint := b.getLsbD 7 }
  else none

/-! ### Port operands (R155) -/

/-- The member an operand stands for; none for a raw byte outside the closed set (R155). -/
def PortOperand.resolve {α : Type} (ofWire : Byte → Option α) : PortOperand α → Option α
  | .member v => some v
  | .rawByte b => ofWire b

/-- The operand a byte at the numbered port stands for. -/
def PortOperand.ofByte {α : Type} (ofWire : Byte → Option α) (b : Byte) : PortOperand α :=
  match ofWire b with
  | some v => .member v
  | none => .rawByte b

/-- The byte that carries an operand at the numbered port. -/
def PortOperand.toByte {α : Type} (wire : α → Byte) : PortOperand α → Byte
  | .member v => wire v
  | .rawByte b => b

/-- An optional PaperKind operand: `some none` when it is absent, `some (some k)` when it is present and a
member, `none` when a raw byte is no member (R154, R155). -/
def resolveKind : Option (PortOperand PaperKind) → Option (Option PaperKind)
  | none => some none
  | some op => (op.resolve PaperKind.ofWire).map some

/-! ### `CF.VOID` and `CF.PRINTINFO` (R85, R141, R154) -/

/-- `c := max(0, min(64, count))`, the clamp being on the signed value (R141). -/
def voidLength (count : BitVec 32) : Nat := (max 0 (min (Config.cfOutMax : Int) count.toInt)).toNat

/-- `<mask>` of `CF.PRINTINFO` (R85, R154). -/
def printMask (kind width length recovery : Bool) : Byte :=
  flagMask kind 0x02#8 ||| flagMask width 0x04#8 ||| flagMask length 0x08#8 ||| flagMask recovery 0xF0#8

/-- The wire value of an optional PaperKind, 0 when absent (R84). -/
def kindByte : Option PaperKind → Byte
  | none => 0x00#8
  | some k => k.wire

/-! ### PackBits control bytes (R74, R122) -/

/-- `ctrl_run(N) = (257 - N) mod 256` (R122). -/
def ctrlRun (n : Nat) : Byte := BitVec.ofNat 8 (257 - n)

/-- `ctrl_lit(N) = N - 1` (R122). -/
def ctrlLit (n : Nat) : Byte := BitVec.ofNat 8 (n - 1)

end Sys2Proof
end

