-- ==== Sys2Proof/WellFormed.lean ====
section
/-! DEFINITION. Which instruction terms are well formed, with a name for each check that fails: a raw byte
operand is no member's wire value (a member is written as the member), a stream fits the 16-bit length port (R35),
and an emission has the span R120 and R121 give it. -/

namespace Sys2Proof

/-- Why an instruction term is not well formed. -/
inductive IllFormed where
  /-- A raw-byte operand is the wire value of a member: the one spelling of that request is the member. -/
  | rawByteIsMember
  /-- A stream is longer than the 16-bit length port can say (R35: `0 <= n < 2^16`). -/
  | streamTooLong
  /-- An emission's N is not in 1..48 (R120, R121). -/
  | emissionCount
  /-- A literal emission reads past the line: `a + N > 48` (R121). -/
  | emissionSlice
deriving DecidableEq, Repr

/-- The check of one port operand. -/
def PortOperand.check {α : Type} (ofWire : Byte → Option α) : PortOperand α → List IllFormed
  | .member _ => []
  | .rawByte b => if (ofWire b).isSome then [.rawByteIsMember] else []

/-- The check of a stream's length (R35). -/
def checkStream (bytes : List Byte) : List IllFormed :=
  if bytes.length < 65536 then [] else [.streamTooLong]

/-- The check of an emission's span length (R114, R120, R121). -/
def checkCount (n : Nat) : List IllFormed :=
  if 1 ≤ n ∧ n ≤ Config.lineBytes then [] else [.emissionCount]

/-- Every check an instruction term fails. -/
def Instr.check : Instr → List IllFormed
  | .cfVoid _ => []
  | .cfStatusReq => []
  | .cfInit => []
  | .cfSetMode modes => modes.check ModeSet.ofWire
  | .cfSetMargin _ => []
  | .cfSetEnh enh => enh.check EnhancedSet.ofWire
  | .cfSwitchMode cmode => cmode.check CommandMode.ofWire
  | .cfRaster comp line => comp.check CompressionMode.ofWire ++ checkStream line
  | .cfZeroRaster => []
  | .cfPrintPreCut => []
  | .cfPrint => []
  | .cfPrintEvac => []
  | .cfSelComp comp => comp.check CompressionMode.ofWire
  | .cfPrintInfo none _ _ _ _ => []
  | .cfPrintInfo (some kind) _ _ _ _ => kind.check PaperKind.ofWire
  | .pbEncode input => checkStream input
  | .pbRecRun n _ => checkCount n
  | .pbRecLit n a => checkCount n ++ (if a + n ≤ Config.lineBytes then [] else [.emissionSlice])
  | .pbFallback => []
  | .sfParse => []

/-- An instruction term is well formed when it fails no check. -/
abbrev Instr.WellFormed (i : Instr) : Prop := i.check = []

end Sys2Proof
end

