-- ==== Sys2Proof/Decode.lean ====
section
/-! DEFINITION. Decoding, total on any bytes and rejecting by name, and the encoder after it.
Two notations of an operation are read here. (1) The numbered request port (R95, R35): `decode`, `encode`.
(2) The byte layouts of spec/opcode_table.json, which are what an operation emits or accepts on the wire (R70, R79,
R87, R88, R73): `readLayout`, `layout`, and `decodeTableWord` over them. -/

namespace Sys2Proof

/-! ### The numbered request port (R95, R96) -/

/-- Why the bytes at the numbered port are no request. -/
inductive DecodeError where
  /-- No byte at all, so no `op_sel`. -/
  | empty
  /-- The `op_sel` value is not in the table of R95 (R96). -/
  | unknownOpSel (sel : Byte)
  /-- Fewer operand bytes than the operation takes. -/
  | truncated
  /-- More operand bytes than the operation takes. -/
  | trailing
  /-- The mask byte of `CF.PRINTINFO` has bit 0 set, or bits 7..4 neither all 0 nor all 1 (R85). -/
  | badPrintMask
  /-- An absent optional operand of `CF.PRINTINFO` does not carry 0 (R85). -/
  | absentNotZero
deriving DecidableEq, Repr

/-- The answer of the decoder. -/
inductive DecodeResult where
  | ok (i : Instr)
  | reject (e : DecodeError)
deriving DecidableEq, Repr

/-- The `op_sel` value of an operation (R95). -/
def Operation.opSel : Operation → Byte
  | .cfVoid => 0x00#8
  | .cfStatusReq => 0x01#8
  | .cfInit => 0x02#8
  | .cfSetMode => 0x03#8
  | .cfSetMargin => 0x04#8
  | .cfSetEnh => 0x05#8
  | .cfSwitchMode => 0x06#8
  | .cfRaster => 0x07#8
  | .cfZeroRaster => 0x08#8
  | .cfPrintPreCut => 0x09#8
  | .cfPrint => 0x0A#8
  | .cfPrintEvac => 0x0B#8
  | .cfSelComp => 0x0C#8
  | .cfPrintInfo => 0x0D#8
  | .pbEncode => 0x10#8
  | .sfParse => 0x20#8

/-- The sixteen operations, in the order of R95's table. -/
def Operation.all : List Operation :=
  [.cfVoid, .cfStatusReq, .cfInit, .cfSetMode, .cfSetMargin, .cfSetEnh, .cfSwitchMode, .cfRaster, .cfZeroRaster,
   .cfPrintPreCut, .cfPrint, .cfPrintEvac, .cfSelComp, .cfPrintInfo, .pbEncode, .sfParse]

/-- The operation an `op_sel` value selects; none where it is not in the table (R96). -/
def Operation.ofSel (sel : Byte) : Option Operation := Operation.all.find? fun o => o.opSel = sel

/-- A stream operand at the port: its 16-bit length, low byte first, then exactly that many bytes. -/
def readStream (bytes : List Byte) (mk : List Byte → Instr) : DecodeResult :=
  match bytes with
  | low :: high :: rest =>
    let n := (Half.ofBytes high low).toNat
    if rest.length < n then .reject .truncated
    else if n < rest.length then .reject .trailing
    else .ok (mk rest)
  | _ => .reject .truncated

/-- The operands of an operation that has none. -/
def readNone (bytes : List Byte) (i : Instr) : DecodeResult :=
  if bytes = [] then .ok i else .reject .trailing

/-- One operand byte. -/
def readByte (bytes : List Byte) (mk : Byte → Instr) : DecodeResult :=
  match bytes with
  | [] => .reject .truncated
  | [b] => .ok (mk b)
  | _ => .reject .trailing

/-- The mask of `CF.PRINTINFO` at the port is one CFE could emit (R85, R154). -/
def printMaskLegal (mask : Byte) : Bool :=
  !mask.getLsbD 0 && (mask &&& 0xF0#8 == 0#8 || mask &&& 0xF0#8 == 0xF0#8)

/-- The five operand bytes of `CF.PRINTINFO`: mask, kind, width, length, lowPower, as the frame lays them out
(R79, R85). An optional operand is present exactly when its mask bit is set. -/
def readPrintInfo (mask kind width length lowPower : Byte) : DecodeResult :=
  if !printMaskLegal mask then .reject .badPrintMask
  else if (!mask.getLsbD 1 && kind != 0#8) || (!mask.getLsbD 2 && width != 0#8) ||
      (!mask.getLsbD 3 && length != 0#8) then .reject .absentNotZero
  else .ok (.cfPrintInfo
    (if mask.getLsbD 1 then some (.ofByte PaperKind.ofWire kind) else none)
    (if mask.getLsbD 2 then some width else none)
    (if mask.getLsbD 3 then some length else none)
    (mask.getLsbD 7) lowPower)

/-- The count of `CF.VOID` (R35): 32 bits, low byte first. -/
def readCount (bytes : List Byte) : DecodeResult :=
  match bytes with
  | [b0, b1, b2, b3] => .ok (.cfVoid (b3 ++ b2 ++ b1 ++ b0))
  | _ => if bytes.length < 4 then .reject .truncated else .reject .trailing

/-- The margin of `CF.SETMARGIN` (R35): 16 bits, low byte first. -/
def readMargin (bytes : List Byte) : DecodeResult :=
  match bytes with
  | [low, high] => .ok (.cfSetMargin (Half.ofBytes high low))
  | _ => if bytes.length < 2 then .reject .truncated else .reject .trailing

/-- The compression mode and the line of `CF.RASTER` (R35). -/
def readRaster (bytes : List Byte) : DecodeResult :=
  match bytes with
  | [] => .reject .truncated
  | comp :: rest => readStream rest fun line => .cfRaster (.ofByte CompressionMode.ofWire comp) line

/-- The operand bytes of `CF.PRINTINFO` (R35). -/
def readPrintInfoBytes (bytes : List Byte) : DecodeResult :=
  match bytes with
  | [mask, kind, width, length, lowPower] => readPrintInfo mask kind width length lowPower
  | _ => if bytes.length < 5 then .reject .truncated else .reject .trailing

/-- The operands of an operation (R35), from the bytes after `op_sel`. -/
def decodeOperands (o : Operation) (bytes : List Byte) : DecodeResult :=
  match o with
  | .cfVoid => readCount bytes
  | .cfStatusReq => readNone bytes .cfStatusReq
  | .cfInit => readNone bytes .cfInit
  | .cfSetMode => readByte bytes fun b => .cfSetMode (.ofByte ModeSet.ofWire b)
  | .cfSetMargin => readMargin bytes
  | .cfSetEnh => readByte bytes fun b => .cfSetEnh (.ofByte EnhancedSet.ofWire b)
  | .cfSwitchMode => readByte bytes fun b => .cfSwitchMode (.ofByte CommandMode.ofWire b)
  | .cfRaster => readRaster bytes
  | .cfZeroRaster => readNone bytes .cfZeroRaster
  | .cfPrintPreCut => readNone bytes .cfPrintPreCut
  | .cfPrint => readNone bytes .cfPrint
  | .cfPrintEvac => readNone bytes .cfPrintEvac
  | .cfSelComp => readByte bytes fun b => .cfSelComp (.ofByte CompressionMode.ofWire b)
  | .cfPrintInfo => readPrintInfoBytes bytes
  | .pbEncode => readStream bytes .pbEncode
  | .sfParse => readNone bytes .sfParse

/-- The numbered port: the first byte is `op_sel`, the rest the operands (R95, R96). -/
def decodeNumbered (bytes : List Byte) : DecodeResult :=
  match bytes with
  | [] => .reject .empty
  | sel :: operands =>
    match Operation.ofSel sel with
    | none => .reject (.unknownOpSel sel)
    | some o => decodeOperands o operands

/-- The instruction of one emission (R120, R121, R124). -/
def Emission.toInstr : Emission → Instr
  | .run n v => .pbRecRun n v
  | .lit n a => .pbRecLit n a
  | .fallback => .pbFallback

/-- The emission a record row is; none for the sixteen operations. -/
def Instr.emission : Instr → Option Emission
  | .pbRecRun n v => some (.run n v)
  | .pbRecLit n a => some (.lit n a)
  | .pbFallback => some .fallback
  | .cfVoid _ | .cfStatusReq | .cfInit | .cfSetMode _ | .cfSetMargin _ | .cfSetEnh _ | .cfSwitchMode _
  | .cfRaster _ _ | .cfZeroRaster | .cfPrintPreCut | .cfPrint | .cfPrintEvac | .cfSelComp _
  | .cfPrintInfo _ _ _ _ _ | .pbEncode _ | .sfParse => none

/-- THE DECODER of the request port: total on any request, rejecting by name. It answers one of the sixteen
operations of R6 and no record row. -/
def decode (r : Request) : DecodeResult :=
  match r with
  | .numbered bytes => decodeNumbered bytes

/-! ### The encoder of the numbered port -/

/-- The count of `CF.VOID` as the port carries it: 32 bits, low byte first. -/
def writeCount (count : BitVec 32) : List Byte :=
  [count.extractLsb' 0 8, count.extractLsb' 8 8, count.extractLsb' 16 8, count.extractLsb' 24 8]

/-- A stream operand as the port carries it: its 16-bit length, low byte first, then the bytes. -/
def writeStream (bytes : List Byte) : List Byte :=
  let n := BitVec.ofNat 16 bytes.length
  Half.low n :: Half.high n :: bytes

/-- The operand bytes of `CF.PRINTINFO`, as the frame lays them out (R79, R85). -/
def writePrintInfo (kind : Option (PortOperand PaperKind)) (width length : Option Byte) (recovery : Bool)
    (lowPower : Byte) : List Byte :=
  [printMask kind.isSome width.isSome length.isSome recovery,
   match kind with
   | none => 0#8
   | some k => k.toByte PaperKind.wire,
   width.getD 0#8, length.getD 0#8, lowPower]

/-- The request that carries an operation: `op_sel` of R95 and the operands of R35. The record rows have no `op_sel`:
no request carries one (R6). -/
def encode : Instr → Option Request
  | .cfVoid count => some (.numbered (Operation.cfVoid.opSel :: writeCount count))
  | .cfStatusReq => some (.numbered [Operation.cfStatusReq.opSel])
  | .cfInit => some (.numbered [Operation.cfInit.opSel])
  | .cfSetMode modes => some (.numbered [Operation.cfSetMode.opSel, modes.toByte ModeSet.wire])
  | .cfSetMargin margin => some (.numbered [Operation.cfSetMargin.opSel, margin.low, margin.high])
  | .cfSetEnh enh => some (.numbered [Operation.cfSetEnh.opSel, enh.toByte EnhancedSet.wire])
  | .cfSwitchMode cmode => some (.numbered [Operation.cfSwitchMode.opSel, cmode.toByte CommandMode.wire])
  | .cfRaster comp line =>
      some (.numbered (Operation.cfRaster.opSel :: comp.toByte CompressionMode.wire :: writeStream line))
  | .cfZeroRaster => some (.numbered [Operation.cfZeroRaster.opSel])
  | .cfPrintPreCut => some (.numbered [Operation.cfPrintPreCut.opSel])
  | .cfPrint => some (.numbered [Operation.cfPrint.opSel])
  | .cfPrintEvac => some (.numbered [Operation.cfPrintEvac.opSel])
  | .cfSelComp comp => some (.numbered [Operation.cfSelComp.opSel, comp.toByte CompressionMode.wire])
  | .cfPrintInfo kind width length recovery lowPower =>
      some (.numbered (Operation.cfPrintInfo.opSel :: writePrintInfo kind width length recovery lowPower))
  | .pbEncode input => some (.numbered (Operation.pbEncode.opSel :: writeStream input))
  | .pbRecRun _ _ => none
  | .pbRecLit _ _ => none
  | .pbFallback => none
  | .sfParse => some (.numbered [Operation.sfParse.opSel])

/-! ### The byte layouts of the opcode table -/

/-- `expand` of R131, the reference expansion (not part of the hardware): `fuel` bounds the number of records;
`none` where R131 leaves it undefined. -/
def expandFuel : Nat → List Byte → Option (List Byte)
  | _, [] => some []
  | 0, _ :: _ => none
  | fuel + 1, u :: rest =>
    if u.toNat ≥ 0x81 then
      match rest with
      | [] => none
      | v :: more => (expandFuel fuel more).map (List.replicate (257 - u.toNat) v ++ ·)
    else if u.toNat ≤ 0x7F then
      if rest.length ≥ u.toNat + 1 then
        (expandFuel fuel (rest.drop (u.toNat + 1))).map (rest.take (u.toNat + 1) ++ ·)
      else none
    else none

/-- `expand` of R131: every record takes at least one byte, so the length is fuel enough. -/
def expand (stream : List Byte) : Option (List Byte) := expandFuel stream.length stream

/-- The header magic of the status frame (R88). -/
def headerBytes : List Byte := [0x80#8, 0x20#8, 0x42#8, 0x33#8, 0x31#8, 0x30#8, 0x00#8]

/-- The command frame an image begins with and the frame's length (R79, R87): the operation is read from the first
one to three bytes, the length follows from them. -/
def readFrame (image : List Byte) : Option (Instr × Nat) :=
  match image with
  | b0 :: b1 :: b2 :: b3 :: b4 :: b5 :: b6 :: b7 :: _ =>
    if b0 = Wire.esc then
      if b1 = Wire.atSign then some (.cfInit, 2)
      else if b1 = Wire.lowI then
        if b2 = Wire.capS then some (.cfStatusReq, 3)
        else if b2 = Wire.capM then (ModeSet.ofWire b3).map fun m => (.cfSetMode (.member m), 4)
        else if b2 = Wire.lowD then some (.cfSetMargin (Half.ofBytes b4 b3), 5)
        else if b2 = Wire.capK then (EnhancedSet.ofWire b3).map fun m => (.cfSetEnh (.member m), 4)
        else if b2 = Wire.lowA then (CommandMode.ofWire b3).map fun m => (.cfSwitchMode (.member m), 4)
        else if b2 = Wire.lowC then
          match readPrintInfo b3 b4 b5 b6 b7 with
          | .ok i => if b3.getLsbD 1 = true → (PaperKind.ofWire b4).isSome then some (i, 8) else none
          | .reject _ => none
        else none
      else none
    else if b0 = Wire.capG then
      let n := (Half.ofBytes b2 b1).toNat
      if n ≤ Config.rasterMax ∧ n + 3 ≤ image.length then
        some (.cfRaster (.member .none) ((image.drop 3).take n), n + 3)
      else none
    else if b0 = Wire.capZ then some (.cfZeroRaster, 1)
    else if b0 = 0x0B#8 then some (.cfPrintPreCut, 1)
    else if b0 = 0x0C#8 then some (.cfPrint, 1)
    else if b0 = 0x1A#8 then some (.cfPrintEvac, 1)
    else if b0 = Wire.capM then (CompressionMode.ofWire b1).map fun m => (.cfSelComp (.member m), 2)
    else none
  | _ => none

/-- The PackBits layouts (R73, R74, R77): one record is that record's emission, several records whose lengths sum
to 48 are an output of `PB.ENCODE` (R78), read as the request for the line it expands to (R132). Where a word can be read in two ways the model
chooses (DESIGN CHOICE, log entry 3): control byte 00 is a literal of one byte (R75: the run of one is the same bytes),
control byte 2F is the fallback (R77: the literal of 48 is the same bytes), one record of 48 bytes is the record and not
the output of `PB.ENCODE`, and a literal is the one whose bytes stand at index 0 of LINE. -/
def readPackBits (n : Nat) (image : List Byte) : Option Instr :=
  match image with
  | u :: v :: _ =>
    if u.toNat ≥ 0xD1 ∧ n ≤ 2 then some (.pbRecRun (257 - u.toNat) v)
    else if u = Config.fallbackCtrl ∧ n ≤ Config.pbOutMax then some .pbFallback
    else if u.toNat < 0x2F ∧ n ≤ u.toNat + 2 then some (.pbRecLit (u.toNat + 1) 0)
    else
      match expand (image.take n) with
      | some line => if line.length = Config.lineBytes then some (.pbEncode line) else none
      | none => none
  | _ => none

/-- The instruction whose layout the first `n` bytes of an image are (the image goes on with zero bytes). A run of
at most 64 zero bytes is the frame of `CF.VOID`, delimited by its transfer alone (R93). A command frame, then a
status frame, is tried before the PackBits layouts, and none is read from an image with bytes beyond its length
(DESIGN CHOICE, log entry 3). A word of at most 8 bytes that begins with ESC 'i' and is no frame of R79 (a reserved
flag bit, an enumeration byte that is no member, R92) is no literal record either: it is rejected. -/
def readLayout (n : Nat) (image : List Byte) : Option Instr :=
  if image.take n = List.replicate n 0#8 ∧ n ≤ Config.cfOutMax then some (.cfVoid (BitVec.ofNat 32 n))
  else
    match readFrame image with
    | some (i, len) => if n ≤ len then some i else readPackBits n image
    | none =>
      if image.take 7 = headerBytes ∧ n ≤ Config.sfBytes then some .sfParse
      else if image.take 2 = [Wire.esc, Wire.lowI] ∧ n ≤ 8 then none
      else readPackBits n image

/-- The bytes of a table word: the table reads a row's pattern as ONE number (spec/98_reader.md), so the first byte
of the layout is the most significant byte of the word. -/
def tableBytes : Nat → Nat → List Byte
  | 0, _ => []
  | k + 1, w => BitVec.ofNat 8 (w / 256 ^ k) :: tableBytes k w

/-- The image of a table word: its bytes, then zero bytes up to beyond the longest layout. -/
def tableImage (nbits w : Nat) : List Byte :=
  tableBytes ((nbits + 7) / 8) w ++ List.replicate Config.cfOutMax 0#8

/-- A word of zeros with as many bits as the table gives a record row. The table gives `CF.VOID` no bits, so eight
zero bits are the control byte of a literal of one byte and sixteen are a run of one (R75; DESIGN CHOICE, log entry
3). -/
def zeroRecord (nbits w : Nat) : Option Instr :=
  if w = 0 ∧ nbits = 8 then some (.pbRecLit 1 0)
  else if w = 0 ∧ nbits = 16 then some (.pbRecRun 1 0x00#8)
  else none

/-- The instruction the decoder reads from an opcode-table word of `nbits` bits. -/
def decodeTableWord (nbits w : Nat) : Option Instr :=
  match zeroRecord nbits w with
  | some i => some i
  | none => readLayout ((nbits + 7) / 8) (tableImage nbits w)

/-- The layout an instruction has on the wire (the `encoding` column of the table, R79), where its operands alone
decide it: `none` for a request that has no frame (R148, R155), for `SF.PARSE`, whose layout is its input, for
`PB.ENCODE`, whose layout is its result, and for the two records that are copied from LINE. -/
def layout : Instr → Option (List Byte)
  | .cfVoid count => some (List.replicate (voidLength count) 0x00#8)
  | .cfStatusReq => some [Wire.esc, Wire.lowI, Wire.capS]
  | .cfInit => some [Wire.esc, Wire.atSign]
  | .cfSetMode modes => (modes.resolve ModeSet.ofWire).map fun m => [Wire.esc, Wire.lowI, Wire.capM, m.wire]
  | .cfSetMargin margin => some [Wire.esc, Wire.lowI, Wire.lowD, margin.low, margin.high]
  | .cfSetEnh enh => (enh.resolve EnhancedSet.ofWire).map fun e => [Wire.esc, Wire.lowI, Wire.capK, e.wire]
  | .cfSwitchMode cmode =>
      (cmode.resolve CommandMode.ofWire).map fun m => [Wire.esc, Wire.lowI, Wire.lowA, m.wire]
  | .cfRaster comp line =>
      if comp.resolve CompressionMode.ofWire = some .none ∧ line.length ≤ Config.rasterMax then
        some (Wire.capG :: writeStream line)
      else none
  | .cfZeroRaster => some [Wire.capZ]
  | .cfPrintPreCut => some [0x0B#8]
  | .cfPrint => some [0x0C#8]
  | .cfPrintEvac => some [0x1A#8]
  | .cfSelComp comp => (comp.resolve CompressionMode.ofWire).map fun m => [Wire.capM, m.wire]
  | .cfPrintInfo kind width length recovery lowPower =>
      (resolveKind kind).map fun k =>
        [Wire.esc, Wire.lowI, Wire.lowC, printMask k.isSome width.isSome length.isSome recovery, kindByte k,
         width.getD 0#8, length.getD 0#8, lowPower]
  | .pbEncode _ => none
  | .pbRecRun n v => some [ctrlRun n, v]
  | .pbRecLit _ _ => none
  | .pbFallback => none
  | .sfParse => none

/-- The instruction read back from its own layout: `CF.VOID` is known from its frame by the clamped count only
(R141), every other instruction that has a layout is read back as it is. -/
def canonical : Instr → Instr
  | .cfVoid count => .cfVoid (BitVec.ofNat 32 (voidLength count))
  | i => i

end Sys2Proof
end

