-- ==== Sys2Proof/Machine/State.lean ====
section
/-! DEFINITION. The state of the codec block as plain data: the registers of PBE (R22), CFE (R25) and SFD (R26,
R27), the buffers of R50, the inputs waiting at the host's side, and the model's own record of errors (R205),
draws (R184) and single emission (log entry 2). The reasons a step can stop, and the state after reset (R220). -/

namespace Sys2Proof.Machine

/-- The mode of PBE's open span (R22, R23): RUN = 0, LIT = 1. -/
inductive SpanMode where
  | run
  | lit
deriving DecidableEq, Repr

/-- A byte-addressed space as a list of cells, addresses strictly rising. An address that is not listed holds no
defined value: reading it is a fault, never a zero (R32, R58, U10). -/
abbrev Memory := List Host.Cell

/-- The registers and buffers of PBE (R22, R50). -/
structure Pbe where
  /-- `PBI`: the input stream of the last request (R50). -/
  pbi   : List Byte
  /-- `LINE[0..47]`: the normalised raster line. -/
  line  : Vector Byte 48
  /-- `S`: index of the first byte of the open span. -/
  s     : Nat
  /-- `I`: index of the byte being examined. -/
  i     : Nat
  /-- `MODE`: mode of the open span. -/
  mode  : SpanMode
  /-- `PBO[0..48]`: the output bytes. -/
  pbo   : Memory
  /-- `PB_LEN`: number of valid bytes in PBO. -/
  len   : Nat
  /-- `PB_FB`: the overflow guard fired and the fallback was written. -/
  fb    : Bool
  /-- `PB_VALID`: PBO[0..PB_LEN-1] is the result of a completed PB.ENCODE. -/
  valid : Bool
deriving DecidableEq, Repr

/-- The registers and buffers of CFE (R25, R50). -/
structure Cfe where
  /-- `CFI`: the raster line stream of the last request (R50). -/
  cfi   : List Byte
  /-- `CFO[0..63]`: the frame. -/
  cfo   : Memory
  /-- `CF_LEN`: number of valid bytes in CFO, the write index while building. -/
  len   : Nat
  /-- `CF_ERR`: 0 none, 1 InvalidArgument (R200). -/
  err   : BitVec 2
  /-- `CF_VALID`: CFO[0..CF_LEN-1] is a finished frame. -/
  valid : Bool
deriving DecidableEq, Repr

/-- The eight StatusFrame field registers (R27), written together or not at all (R188). -/
structure StatusFrame where
  /-- `SF_EEC`: enhancedErrorCode, frame byte 7. -/
  eec : Byte
  /-- `SF_EI`: errorInfoSet (R28). -/
  ei  : Half
  /-- `SF_MW`: mediaWidth, frame byte 10. -/
  mw  : Byte
  /-- `SF_MT`: mediaType, frame byte 11. -/
  mt  : Byte
  /-- `SF_ML`: mediaLength, frame byte 17. -/
  ml  : Byte
  /-- `SF_ST`: statusType, frame byte 18. -/
  st  : Byte
  /-- `SF_PT`: phaseType, frame byte 19. -/
  pt  : Byte
  /-- `SF_PN`: phaseNumber, frame bytes 20 and 21. -/
  pn  : Half
deriving DecidableEq, Repr

/-- The registers and the buffer of SFD (R26, R27, R50). -/
structure Sfd where
  /-- `SIB[0..SIB_SIZE-1]`: bytes received from the device, written by the host only. -/
  sib   : Memory
  /-- `CUR`: the read cursor. -/
  cur   : Nat
  /-- `LIM`: one past the last valid byte. -/
  lim   : Nat
  /-- `SF_VALID`: the field registers hold the frame of the last SF.PARSE and it succeeded. -/
  valid : Bool
  /-- The eight field registers. -/
  frame : StatusFrame
  /-- `SF_ERR`: 0 none, 2 FormatError, 3 BufferUnderflow (R200). -/
  err   : BitVec 2
  /-- `SF_EKIND`: 1 missing header marker, 2 invalid size, 3 invalid value, else 0 (R197). -/
  ekind : BitVec 2
  /-- `SF_EOFF`: offset of the offending byte. -/
  eoff  : BitVec 3
  /-- `SF_EEXP`: the expected byte value. -/
  eexp  : Byte
  /-- `SF_EACT`: the byte value found. -/
  eact  : Byte
deriving DecidableEq, Repr

/-- The three kinds of FormatError (R197), each a distinct failure mode (R176). -/
inductive FormatKind where
  /-- Kind 1, "missing header marker". -/
  | missingHeaderMarker
  /-- Kind 2, "invalid size". -/
  | invalidSize
  /-- Kind 3, "invalid value". -/
  | invalidValue
deriving DecidableEq, Repr

/-- The closed error taxonomy (R195, R200). An error is an ordinary outcome reported in the response (R205): the
machine goes on. -/
inductive CodecError where
  | invalidArgument
  | formatError (kind : FormatKind) (offset : Nat) (expected actual : Byte)
  | bufferUnderflow
deriving DecidableEq, Repr

/-- The six byte-addressed spaces (R50). -/
inductive Space where
  | pbi
  | line
  | pbo
  | cfi
  | cfo
  | sib
deriving DecidableEq, Repr

/-- What the host does to an instance between operations, other than a request: it loads received bytes and sets
CUR and LIM (R26, R222), reads a response (R24, R50, R185), or asserts reset (R220). -/
inductive HostAccess where
  | writeSib (start : Nat) (data : List Byte)
  | setCur (value : Nat)
  | setLim (value : Nat)
  | readPbo (index : Nat)
  | readCfo (index : Nat)
  | readStatus
  | reset
deriving DecidableEq, Repr

/-- One move of the host: a request (R34), or an access to the instance's buffers and registers, which the host
owns outside an operation (R62). -/
inductive HostAction where
  | request (r : Request)
  | access (x : HostAccess)
deriving DecidableEq, Repr

/-- Why the machine stops with a fault. None of these is an error of R195, which is reported in the response. -/
inductive Fault where
  /-- A byte nothing defined was read: `SF.PARSE` over a byte of SIB the host never wrote, or a host read of PBO or
  CFO at or above the length, or with the valid bit 0 (R32, R58, U10). Safe: the spec gives no value. -/
  | unspecifiedByte (space : Space) (index : Nat)
  /-- An index outside its space: a host access past PBO, CFO or SIB (R56: what lies outside a space does not
  exist). Safe. -/
  | outOfSpace (space : Space) (index : Nat)
  /-- A host read of the StatusFrame registers while SF_VALID = 0 (R185, U12: not to be read). Safe. -/
  | statusNotValid
deriving DecidableEq, Repr

/-- Why a request is given no meaning. -/
inductive Refusal where
  /-- `exec`: the instruction has no meaning yet. Safe. -/
  | notModelled (mnemonic : String)
  /-- `step`: an `op_sel` value that is not in the table of R95 (R96, U13: no register changes and no response is
  produced). Safe. -/
  | unknownOpSel (sel : Byte)
  /-- `step`: the bytes after a known `op_sel` are no operands of it, in the port layout the model chose (log
  entry 1). Safe. -/
  | malformedRequest (why : DecodeError)
  /-- `SF.PARSE` with `CUR > LIM` or `LIM > SIB_SIZE`: the host broke the set-up of R222 (U16). Safe. -/
  | hostSetup (cur lim : Nat)
  /-- A record emission outside the span R120 and R121 give it (`1 <= N <= 48`, `a + N <= 48`). Safe. -/
  | emissionRange (n a : Nat)
deriving DecidableEq, Repr

/-- The state of one instance of the block. -/
structure State where
  pbe    : Pbe
  cfe    : Cfe
  sfd    : Sfd
  /-- What the host has lined up, in order; `step` takes the first entry (R34: an input, not a register). -/
  inbox  : List HostAction
  /-- One emission of PBE's own sequencer (R120, R121, R124) taken as a step by itself. No host action and no operation
  sets it, and every step leaves it empty: only `withFetchWord` fills it, for a record row of the table. The model's
  own field (DESIGN CHOICE, log entry 2). -/
  emission : Option Emission
  /-- The errors raised so far in the run, oldest first (R205). The model's own field. -/
  errors : List CodecError
  /-- How many draws of `Config.sfdCurOnFail` have been taken (R184). The model's own field. -/
  draws  : Nat
deriving DecidableEq, Repr

/-- PBE after reset (R22, R220). PBO is unspecified: nothing is listed. PBI is the host's: empty (log entry 6). -/
def Pbe.reset : Pbe :=
  { pbi := [], line := Vector.replicate 48 0#8, s := 0, i := 1, mode := .run, pbo := [], len := 0, fb := false,
    valid := false }

/-- CFE after reset (R25, R220). CFO is unspecified: nothing is listed. CFI is the host's: empty (log entry 6). -/
def Cfe.reset : Cfe := { cfi := [], cfo := [], len := 0, err := 0#2, valid := false }

/-- The StatusFrame registers after reset: the spec leaves them unspecified (R27); the model names 0 (DESIGN
CHOICE, log entry 6) and lets no host read them while SF_VALID = 0. -/
def StatusFrame.reset : StatusFrame :=
  { eec := 0#8, ei := 0#16, mw := 0#8, mt := 0#8, ml := 0#8, st := 0#8, pt := 0#8, pn := 0#16 }

/-- SFD after reset (R26, R27, R220). SIB is unspecified: nothing is listed. -/
def Sfd.reset : Sfd :=
  { sib := [], cur := 0, lim := 0, valid := false, frame := StatusFrame.reset, err := 0#2, ekind := 0#2,
    eoff := 0#3, eexp := 0#8, eact := 0#8 }

/-- The machine right after reset (R32, R220), with no host action lined up. `draws` starts at 0 (DESIGN CHOICE,
log entry 5). -/
def State.reset : State :=
  { pbe := Pbe.reset, cfe := Cfe.reset, sfd := Sfd.reset, inbox := [], emission := none, errors := [],
    draws := 0 }

end Sys2Proof.Machine
end

