-- ==== Sys2Proof/Machine/Flags.lean ====
section
/-! DEFINITION. Every flag computation: the errorInfo combination and its thirteen named flags (R28, R89, R178,
R179, R180), and the numbers of the error codes and FormatError kinds (R197, R200). -/

namespace Sys2Proof.Machine

/-- The thirteen named ErrorInfo flags (R89), in the order of their bits. -/
inductive ErrorFlag where
  | noMedia
  | mediaEnd
  | cutterJam
  | lowBattery
  | busy
  | highVoltageAdapter
  | mediaChange
  | expansionBufferFull
  | communicationError
  | communicationBufferFull
  | coverOpen
  | headDetectionError
  | rfidError
deriving DecidableEq, Repr

/-- The bit of SF_EI a flag is (R89, R179). -/
def ErrorFlag.bit : ErrorFlag → Nat
  | .noMedia => 0
  | .mediaEnd => 1
  | .cutterJam => 2
  | .lowBattery => 3
  | .busy => 4
  | .highVoltageAdapter => 6
  | .mediaChange => 8
  | .expansionBufferFull => 9
  | .communicationError => 10
  | .communicationBufferFull => 11
  | .coverOpen => 12
  | .headDetectionError => 14
  | .rfidError => 15

/-- Every named flag (R89). -/
def ErrorFlag.all : List ErrorFlag :=
  [.noMedia, .mediaEnd, .cutterJam, .lowBattery, .busy, .highVoltageAdapter, .mediaChange, .expansionBufferFull,
   .communicationError, .communicationBufferFull, .coverOpen, .headDetectionError, .rfidError]

/-- The mask of all named flags (R89). -/
def errorInfoMask : Half := 0xDF5F#16

/-- `SF_EI <- (f[9] * 256 + f[8]) & 0xDF5F` (R178, R180): byte 8 is the low byte. -/
def errorInfo (low high : Byte) : Half := Half.ofBytes high low &&& errorInfoMask

/-- A flag's one-bit output: its bit of SF_EI (R179). -/
def ErrorFlag.output (f : ErrorFlag) (ei : Half) : Bool := ei.getLsbD f.bit

/-- errorInfoSet as a list of its members, in the order of their bits (R179). -/
def errorInfoSet (ei : Half) : List ErrorFlag := ErrorFlag.all.filter fun f => f.output ei

/-- The number of a FormatError kind (R197). -/
def FormatKind.code : FormatKind → BitVec 2
  | .missingHeaderMarker => 1#2
  | .invalidSize => 2#2
  | .invalidValue => 3#2

/-- The number of an error in CF_ERR and SF_ERR (R200). -/
def CodecError.code : CodecError → BitVec 2
  | .invalidArgument => 1#2
  | .formatError _ _ _ _ => 2#2
  | .bufferUnderflow => 3#2

end Sys2Proof.Machine
end

