-- ==== Sys2Proof/Machine/Ops.lean ====
section
/-! DEFINITION. The named operations the meanings share: bytes of a space, the entry of each unit (R33), putting a
frame (R140), emitting a record under the guard (R120, R121, R123, R124), raising an error (R199), the cursor after
a failed parse (R184), the responses and the host's reads (R24, R58, R185). -/

namespace Sys2Proof.Machine

/-! ### Bytes of a space (R12, R51, R52) -/

/-- `MemRead(space, a, 1)`: the byte listed at an index, none where nothing has written it. -/
def Memory.read (m : Memory) (a : Nat) : Option Byte :=
  match m with
  | [] => none
  | (k, b) :: rest => if a = k then some b else Memory.read rest a

/-- `MemWrite(space, a, 1, v)`: the byte at one index is replaced, the addresses keep rising. -/
def Memory.write (m : Memory) (a : Nat) (v : Byte) : Memory :=
  match m with
  | [] => [(a, v)]
  | (k, b) :: rest =>
    if a < k then (a, v) :: (k, b) :: rest
    else if a = k then (a, v) :: rest
    else (k, b) :: Memory.write rest a v

/-- Bytes written one after another, the first at index `a`. -/
def Memory.writeAll (m : Memory) (a : Nat) : List Byte → Memory
  | [] => m
  | b :: bs => Memory.writeAll (Memory.write m a b) (a + 1) bs

/-- The `n` bytes from index `a` on, read one after another; where one has no value, its index. -/
def Memory.readRange (m : Memory) (a : Nat) : Nat → Except Nat (List Byte)
  | 0 => .ok []
  | n + 1 =>
    match Memory.read m a with
    | none => .error a
    | some b =>
      match Memory.readRange m (a + 1) n with
      | .ok bs => .ok (b :: bs)
      | .error k => .error k

/-- The canonical form: the addresses are strictly rising, so no address is listed twice. -/
abbrev Memory.wf (m : Memory) : Prop := m.Pairwise fun x y => x.1 < y.1

/-! ### CFE (R33, R140, R199) -/

/-- The entry of a CFE operation (R33): valid bit, error and length cleared. The old contents of CFO are replaced,
not appended to (R59), so CFO holds no defined byte until one is put (R25). -/
def Cfe.entry (c : Cfe) : Cfe := { c with cfo := [], len := 0, err := 0#2, valid := false }

/-- `put(v)`: `MemWrite(CFO, CF_LEN, 1, v); CF_LEN <- CF_LEN + 1`. -/
def Cfe.put (c : Cfe) (v : Byte) : Cfe := { c with cfo := Memory.write c.cfo c.len v, len := c.len + 1 }

/-- A frame put byte after byte, the first byte first. -/
def Cfe.putAll (c : Cfe) (frame : List Byte) : Cfe := frame.foldl Cfe.put c

/-- A CFE operation that ends with a frame (R140): entry, the bytes, the valid bit. -/
def State.answerFrame (s : State) (frame : List Byte) : State :=
  { s with cfe := { Cfe.putAll s.cfe.entry frame with valid := true } }

/-- The host delivers a raster line to CFI with the request (R35, R50). -/
def State.deliverCfi (s : State) (line : List Byte) : State := { s with cfe := { s.cfe with cfi := line } }

/-! ### SFD entry and errors (R33, R184, R199) -/

/-- The entry of `SF.PARSE` (R33): valid bit and error registers cleared. -/
def State.sfdEntry (s : State) : State :=
  { s with sfd := { s.sfd with valid := false, err := 0#2, ekind := 0#2, eoff := 0#3, eexp := 0#8, eact := 0#8 } }

/-- `raise E(info)` (R199), after the unit's entry: the unit's valid bit stays 0, its error register receives the
code of R200, FormatError's information registers receive `info`, CF_LEN becomes 0, and nothing else changes but the
record of errors (R205). InvalidArgument is CFE's (R196), the other two are SFD's (R197, R198). -/
def State.raise (s : State) (e : CodecError) : State :=
  match e with
  | .invalidArgument =>
    { s with cfe := { s.cfe with len := 0, err := e.code, valid := false }, errors := s.errors ++ [e] }
  | .formatError kind offset expected actual =>
    { s with
      sfd := { s.sfd with valid := false, err := e.code, ekind := kind.code, eoff := BitVec.ofNat 3 offset,
                          eexp := expected, eact := actual },
      errors := s.errors ++ [e] }
  | .bufferUnderflow =>
    { s with sfd := { s.sfd with valid := false, err := e.code }, errors := s.errors ++ [e] }

/-- A CFE operation that ends with InvalidArgument (R140, R199): entry, then the error; no byte is delivered. -/
def State.answerInvalid (s : State) : State :=
  State.raise { s with cfe := s.cfe.entry } .invalidArgument

/-- The cursor after a failed parse (R184, D8): some value from CUR at entry to `min(CUR + 32, LIM)`, which one
being the free draw. -/
def failCursor (draw cur lim : Nat) : Nat :=
  cur + Config.sfdCurOnFail draw % (min (cur + Config.sfBytes) lim - cur + 1)

/-- The read cursor takes its value after a failed parse (R184); the next failure takes the next draw. -/
def State.drawCursor (s : State) : State :=
  { s with sfd := { s.sfd with cur := failCursor s.draws s.sfd.cur s.sfd.lim }, draws := s.draws + 1 }

/-! ### PBE: normalisation, emission, guard, fallback -/

/-- The normalised line (R111): byte `k` of the input when `k < n`, else 00; bytes beyond 48 are never read. -/
def normalise (input : List Byte) : Vector Byte 48 := Vector.ofFn fun k => input.getD k.val 0#8

/-- `LINE[k]` for an index inside the line (R57: no rule reads outside it). -/
def lineByte (line : Vector Byte 48) (k : Nat) : Byte := line.toList.getD k 0#8

/-- `LINE[a..a+n-1]`. -/
def lineSlice (line : Vector Byte 48) (a n : Nat) : List Byte := (line.toList.drop a).take n

/-- A record appended: its bytes from `PBO[PB_LEN]` on, PB_LEN advanced (R120, R121). -/
def Pbe.append (p : Pbe) (record : List Byte) : Pbe :=
  { p with pbo := Memory.writeAll p.pbo p.len record, len := p.len + record.length }

/-- `Fallback()` (R124): 2F and the 48 bytes of LINE from index 0 on, PB_LEN 49, PB_FB 1. -/
def Pbe.fallback (p : Pbe) : Pbe :=
  { p with pbo := Memory.writeAll p.pbo 0 (Config.fallbackCtrl :: p.line.toList), len := Config.pbOutMax,
           fb := true }

/-- The guard before every record (R123): the fallback where the cumulative length would exceed GUARD_LIMIT, else
the record is appended. -/
def Pbe.emit (p : Pbe) (record : List Byte) : Pbe :=
  if p.len + record.length > Config.guardLimit then p.fallback else p.append record

/-- `EmitRun(N, v)` (R120). -/
def Pbe.emitRun (p : Pbe) (n : Nat) (v : Byte) : Pbe := p.emit [ctrlRun n, v]

/-- `EmitLit(N, a)` (R121). -/
def Pbe.emitLit (p : Pbe) (n a : Nat) : Pbe := p.emit (ctrlLit n :: lineSlice p.line a n)

/-- The entry of `PB.ENCODE` (R22, R33): flags and length cleared; PBO holds no defined byte until one is emitted. -/
def Pbe.entry (p : Pbe) : Pbe := { p with pbo := [], len := 0, fb := false, valid := false }

/-! ### Responses (R24, R58, R140, R185) -/

/-- The bytes below the length of an output buffer. -/
def outputBytes (m : Memory) (len : Nat) : Option (List Byte) :=
  match Memory.readRange m 0 len with
  | .ok bs => some bs
  | .error _ => none

/-- The response of the last `PB.ENCODE`: `PBO[0..PB_LEN-1]` when PB_VALID = 1 (R24). -/
def State.pbResponse (s : State) : Option (List Byte) :=
  if s.pbe.valid then outputBytes s.pbe.pbo s.pbe.len else none

/-- The response of the last CFE operation: `CFO[0..CF_LEN-1]` when CF_VALID = 1 (R25). -/
def State.cfResponse (s : State) : Option (List Byte) :=
  if s.cfe.valid then outputBytes s.cfe.cfo s.cfe.len else none

/-- The StatusFrame of the last `SF.PARSE`, when SF_VALID = 1 (R27, R185). -/
def State.sfResponse (s : State) : Option StatusFrame := if s.sfd.valid then some s.sfd.frame else none

/-! ### The host's reads (R32, R50, R58, R185) -/

/-- A byte of an output buffer as the host reads it: a fault outside the space, and at or above the length or with
the valid bit 0, where the byte is unspecified (R56, R58, U10). -/
def readOutput (space : Space) (size : Nat) (valid : Bool) (m : Memory) (len index : Nat) : Except Fault Byte :=
  if size ≤ index then .error (.outOfSpace space index)
  else if valid = false ∨ len ≤ index then .error (.unspecifiedByte space index)
  else
    match Memory.read m index with
    | some b => .ok b
    | none => .error (.unspecifiedByte space index)

/-- `PBO[index]` as the host reads it. -/
def State.hostPbo (s : State) (index : Nat) : Except Fault Byte :=
  readOutput .pbo Config.pbOutMax s.pbe.valid s.pbe.pbo s.pbe.len index

/-- `CFO[index]` as the host reads it. -/
def State.hostCfo (s : State) (index : Nat) : Except Fault Byte :=
  readOutput .cfo Config.cfOutMax s.cfe.valid s.cfe.cfo s.cfe.len index

/-- The StatusFrame registers as the host reads them: not while SF_VALID = 0 (R185, U12). -/
def State.hostStatus (s : State) : Except Fault StatusFrame :=
  if s.sfd.valid then .ok s.sfd.frame else .error .statusNotValid

end Sys2Proof.Machine
end

