-- ==== Sys2Proof/Machine/CommandFrames.lean ====
section
/-! DEFINITION. CFE: the meanings of the fourteen command frame operations, one rule each (R141 to R154), with the
operand rule of the raw-byte port (R155). -/

namespace Sys2Proof.Machine

/-- A CFE operation with an operand that may be no member of its closed set: the frame, or InvalidArgument and no
frame (R155, R196). -/
def State.answerOperand {α : Type} (s : State) (operand : Option α) (frame : α → List Byte) : State :=
  match operand with
  | some v => s.answerFrame (frame v)
  | none => s.answerInvalid

/-- `CF.VOID count` (R141). -/
def execCfVoid (count : BitVec 32) (s : State) : Host.Outcome State Fault Refusal :=
  .next (s.answerFrame (List.replicate (voidLength count) 0x00#8))

/-- `CF.STATUSREQ` (R142). -/
def execCfStatusReq (s : State) : Host.Outcome State Fault Refusal :=
  .next (s.answerFrame [Wire.esc, Wire.lowI, Wire.capS])

/-- `CF.INIT` (R143). -/
def execCfInit (s : State) : Host.Outcome State Fault Refusal :=
  .next (s.answerFrame [Wire.esc, Wire.atSign])

/-- `CF.SETMODE modes` (R144, R155). -/
def execCfSetMode (modes : PortOperand ModeSet) (s : State) : Host.Outcome State Fault Refusal :=
  .next (s.answerOperand (modes.resolve ModeSet.ofWire) fun m => [Wire.esc, Wire.lowI, Wire.capM, m.wire])

/-- `CF.SETMARGIN margin` (R145): low byte first. -/
def execCfSetMargin (margin : Half) (s : State) : Host.Outcome State Fault Refusal :=
  .next (s.answerFrame [Wire.esc, Wire.lowI, Wire.lowD, margin.low, margin.high])

/-- `CF.SETENH enh` (R146, R155). -/
def execCfSetEnh (enh : PortOperand EnhancedSet) (s : State) : Host.Outcome State Fault Refusal :=
  .next (s.answerOperand (enh.resolve EnhancedSet.ofWire) fun e => [Wire.esc, Wire.lowI, Wire.capK, e.wire])

/-- `CF.SWITCHMODE cmode` (R147, R155). -/
def execCfSwitchMode (cmode : PortOperand CommandMode) (s : State) : Host.Outcome State Fault Refusal :=
  .next (s.answerOperand (cmode.resolve CommandMode.ofWire) fun m => [Wire.esc, Wire.lowI, Wire.lowA, m.wire])

/-- The frame of `CF.RASTER` for the line in CFI (R148): 'G', the byte count low byte first, the line. -/
def rasterFrame (cfi : List Byte) : List Byte :=
  let n := BitVec.ofNat 16 cfi.length
  Wire.capG :: Half.low n :: Half.high n :: cfi

/-- `CF.RASTER comp, line` (R148): InvalidArgument unless the mode is NONE and the line is at most 61 bytes. -/
def execCfRaster (comp : PortOperand CompressionMode) (line : List Byte) (s : State) :
    Host.Outcome State Fault Refusal :=
  let s := s.deliverCfi line
  if comp.resolve CompressionMode.ofWire = some .none ∧ s.cfe.cfi.length ≤ Config.rasterMax then
    .next (s.answerFrame (rasterFrame s.cfe.cfi))
  else .next s.answerInvalid

/-- `CF.ZERORASTER` (R149). -/
def execCfZeroRaster (s : State) : Host.Outcome State Fault Refusal := .next (s.answerFrame [Wire.capZ])

/-- `CF.PRINTPRECUT` (R150). -/
def execCfPrintPreCut (s : State) : Host.Outcome State Fault Refusal := .next (s.answerFrame [0x0B#8])

/-- `CF.PRINT` (R151). -/
def execCfPrint (s : State) : Host.Outcome State Fault Refusal := .next (s.answerFrame [0x0C#8])

/-- `CF.PRINTEVAC` (R152). -/
def execCfPrintEvac (s : State) : Host.Outcome State Fault Refusal := .next (s.answerFrame [0x1A#8])

/-- `CF.SELCOMP comp` (R153, R155): both members are accepted here. -/
def execCfSelComp (comp : PortOperand CompressionMode) (s : State) : Host.Outcome State Fault Refusal :=
  .next (s.answerOperand (comp.resolve CompressionMode.ofWire) fun m => [Wire.capM, m.wire])

/-- `CF.PRINTINFO kind, width, length, recovery, lowPower` (R154, R155): presence is in the mask alone. -/
def execCfPrintInfo (kind : Option (PortOperand PaperKind)) (width length : Option Byte) (recovery : Bool)
    (lowPower : Byte) (s : State) : Host.Outcome State Fault Refusal :=
  .next (s.answerOperand (resolveKind kind) fun k =>
    [Wire.esc, Wire.lowI, Wire.lowC, printMask k.isSome width.isSome length.isSome recovery, kindByte k,
     width.getD 0x00#8, length.getD 0x00#8, lowPower])

end Sys2Proof.Machine
end

