-- ==== Sys2Proof/Machine/PackBits.lean ====
section
/-! DEFINITION. PBE: the meanings of `PB.ENCODE` (R110 to R126) and of its three record emissions (R120, R121,
R124), and the functional form of R127 that the state machine is stated equal to. -/

namespace Sys2Proof.Machine

/-- One pass of the scan loop's body (R113, R126): exactly one of R115, R116, R117, R118, then `I <- I + 1`. -/
def Pbe.scanStep (p : Pbe) : Pbe :=
  let eq := lineByte p.line p.i == lineByte p.line (p.i - 1)
  if p.i = p.s + 1 then
    { p with mode := if eq then .run else .lit, i := p.i + 1 }
  else
    match p.mode, eq with
    | .run, true => { p with i := p.i + 1 }
    | .lit, false => { p with i := p.i + 1 }
    | .run, false =>
      { p.emitRun (p.i - p.s) (lineByte p.line p.s) with s := p.i, mode := .run, i := p.i + 1 }
    | .lit, true =>
      { p.emitLit (p.i - 1 - p.s) p.s with s := p.i - 1, mode := .run, i := p.i + 1 }

/-- `while I < 48 and PB_FB = 0` (R126); `fuel` bounds the passes. -/
def Pbe.scan : Nat → Pbe → Pbe
  | 0, p => p
  | fuel + 1, p => if p.i < Config.lineBytes ∧ p.fb = false then Pbe.scan fuel p.scanStep else p

/-- The flush at the end of the scan (R119), where the guard has not fired. -/
def Pbe.flush (p : Pbe) : Pbe :=
  if p.fb then p
  else
    match p.mode with
    | .run => p.emitRun (Config.lineBytes - p.s) (lineByte p.line p.s)
    | .lit => p.emitLit (Config.lineBytes - p.s) p.s

/-- The start of the scan (R111, R112): the input is in PBI, LINE is its normal form, S, MODE and I are set. -/
def Pbe.start (p : Pbe) (input : List Byte) : Pbe :=
  { p.entry with pbi := input, line := normalise input, s := 0, mode := .run, i := 1 }

/-- `PB.ENCODE` on PBE's registers (R126): I goes from 1 up to 48, so 47 passes are enough. -/
def Pbe.encode (p : Pbe) (input : List Byte) : Pbe :=
  { (Pbe.scan 47 (p.start input)).flush with valid := true }

/-- `PB.ENCODE in` (R110, R126): total, no error on any input (R133). -/
def execPbEncode (input : List Byte) (s : State) : Host.Outcome State Fault Refusal :=
  .next { s with pbe := s.pbe.encode input }

/-- `PB.REC.RUN`: `EmitRun(N, v)`, `1 <= N <= 48` (R120). -/
def execPbRecRun (n : Nat) (v : Byte) (s : State) : Host.Outcome State Fault Refusal :=
  if 1 ≤ n ∧ n ≤ Config.lineBytes then .next { s with pbe := s.pbe.emitRun n v } else .refused (.emissionRange n 0)

/-- `PB.REC.LIT`: `EmitLit(N, a)`, `1 <= N <= 48`, `a + N <= 48` (R121). -/
def execPbRecLit (n a : Nat) (s : State) : Host.Outcome State Fault Refusal :=
  if 1 ≤ n ∧ n ≤ Config.lineBytes ∧ a + n ≤ Config.lineBytes then .next { s with pbe := s.pbe.emitLit n a }
  else .refused (.emissionRange n a)

/-- `PB.FALLBACK`: `Fallback()` (R124). -/
def execPbFallback (s : State) : Host.Outcome State Fault Refusal := .next { s with pbe := s.pbe.fallback }

/-! ### The functional form (R127) -/

/-- A span of the line: its kind, the index of its first byte, its length (R15, R127). -/
structure Span where
  kind  : SpanMode
  start : Nat
  n     : Nat
deriving DecidableEq, Repr

/-- `scan(s, i, m)` of R127, with `k = 48 - i` positions still to examine. -/
def spansFrom (line : Vector Byte 48) : Nat → Nat → SpanMode → List Span
  | 0, s, m => [⟨m, s, Config.lineBytes - s⟩]
  | k + 1, s, m =>
    let i := Config.lineBytes - (k + 1)
    let eq := lineByte line i == lineByte line (i - 1)
    if i = s + 1 then spansFrom line k s (if eq then .run else .lit)
    else
      match m, eq with
      | .run, true => spansFrom line k s .run
      | .lit, false => spansFrom line k s .lit
      | .run, false => ⟨.run, s, i - s⟩ :: spansFrom line k i .run
      | .lit, true => ⟨.lit, s, i - 1 - s⟩ :: spansFrom line k (i - 1) .run

/-- `spans(line) = scan(0, 1, RUN)` (R127). -/
def spans (line : Vector Byte 48) : List Span := spansFrom line 47 0 .run

/-- `rec(kind, start, N)` (R127). -/
def Span.record (line : Vector Byte 48) (x : Span) : List Byte :=
  match x.kind with
  | .run => [ctrlRun x.n, lineByte line x.start]
  | .lit => ctrlLit x.n :: lineSlice line x.start x.n

/-- `normal(line)`: the records of the spans in order (R127). -/
def normalPath (line : Vector Byte 48) : List Byte := (spans line).flatMap (Span.record line)

/-- The result of `PB.ENCODE` as a function of the normalised line (R127). -/
def encodeLine (line : Vector Byte 48) : List Byte :=
  if (normalPath line).length ≤ Config.guardLimit then normalPath line
  else Config.fallbackCtrl :: line.toList

end Sys2Proof.Machine
end

