-- ==== Sys2Proof/Machine/StatusDecode.lean ====
section
/-! DEFINITION. SFD: the meaning of `SF.PARSE` (R170 to R186): the ordered header checks, the field extraction, and
the failures. -/

namespace Sys2Proof.Machine

/-- The header checks in order (R173, R174, R175): for each of the bytes 0 to 6, the kind of the FormatError and the
expected value (R88). -/
def headerChecks : List (FormatKind × Byte) :=
  [(.missingHeaderMarker, 0x80#8), (.invalidSize, 0x20#8), (.invalidValue, 0x42#8), (.invalidValue, 0x33#8),
   (.invalidValue, 0x31#8), (.invalidValue, 0x30#8), (.invalidValue, 0x00#8)]

/-- The first check that fails decides the error, and it is the only one reported (R176). -/
def firstMismatch (offset : Nat) : List (FormatKind × Byte) → List Byte → Option CodecError
  | (kind, expected) :: checks, actual :: bytes =>
    if actual = expected then firstMismatch (offset + 1) checks bytes
    else some (.formatError kind offset expected actual)
  | _, _ => none

/-- Byte `k` of the frame, `f[k]`. -/
def frameByte (f : List Byte) (k : Nat) : Byte := f.getD k 0#8

/-- The eight field registers of an accepted frame (R177, R178, R181). -/
def extract (f : List Byte) : StatusFrame :=
  { eec := frameByte f 7, ei := errorInfo (frameByte f 8) (frameByte f 9), mw := frameByte f 10,
    mt := frameByte f 11, ml := frameByte f 17, st := frameByte f 18, pt := frameByte f 19,
    pn := Half.ofBytes (frameByte f 20) (frameByte f 21) }

/-- Success (R177, R183): the field registers written together, CUR advanced by 32, the valid bit set. -/
def State.acceptFrame (s : State) (f : List Byte) : State :=
  { s with sfd := { s.sfd with frame := extract f, cur := s.sfd.cur + Config.sfBytes, valid := true } }

/-- Failure (R184, R199): the error is raised and the cursor takes its free value; no field register is written. -/
def State.rejectFrame (s : State) (e : CodecError) : State := (s.raise e).drawCursor

/-- `SF.PARSE` (R186). A host that broke the set-up is refused (U16); fewer than 32 available bytes are
BufferUnderflow before any byte is read (R172); the 32 bytes are read, a byte nobody wrote being a fault (U10); the
header decides between FormatError and success (R173 to R176). -/
def execSfParse (s : State) : Host.Outcome State Fault Refusal :=
  let c := s.sfd.cur
  if s.sfd.lim < c ∨ Config.sibSize < s.sfd.lim then .refused (.hostSetup c s.sfd.lim)
  else if s.sfd.lim - c < Config.sfBytes then .next (s.sfdEntry.rejectFrame .bufferUnderflow)
  else
    match Memory.readRange s.sfd.sib c Config.sfBytes with
    | .error k => .fault (.unspecifiedByte .sib k)
    | .ok f =>
      match firstMismatch 0 headerChecks f with
      | some e => .next (s.sfdEntry.rejectFrame e)
      | none => .next (s.sfdEntry.acceptFrame f)

end Sys2Proof.Machine
end

