-- ==== Sys2Proof/Machine/Dispatch.lean ====
section
/-! DEFINITION. One arm for each constructor of `Instr`: the meaning of that instruction. -/

namespace Sys2Proof.Machine

def exec (i : Instr) (s : State) : Host.Outcome State Fault Refusal :=
  match i with
  | .cfVoid count => Sys2Proof.Machine.execCfVoid count s
  | .cfStatusReq => Sys2Proof.Machine.execCfStatusReq s
  | .cfInit => Sys2Proof.Machine.execCfInit s
  | .cfSetMode modes => Sys2Proof.Machine.execCfSetMode modes s
  | .cfSetMargin margin => Sys2Proof.Machine.execCfSetMargin margin s
  | .cfSetEnh enh => Sys2Proof.Machine.execCfSetEnh enh s
  | .cfSwitchMode cmode => Sys2Proof.Machine.execCfSwitchMode cmode s
  | .cfRaster comp line => Sys2Proof.Machine.execCfRaster comp line s
  | .cfZeroRaster => Sys2Proof.Machine.execCfZeroRaster s
  | .cfPrintPreCut => Sys2Proof.Machine.execCfPrintPreCut s
  | .cfPrint => Sys2Proof.Machine.execCfPrint s
  | .cfPrintEvac => Sys2Proof.Machine.execCfPrintEvac s
  | .cfSelComp comp => Sys2Proof.Machine.execCfSelComp comp s
  | .cfPrintInfo kind width length recovery lowPower => Sys2Proof.Machine.execCfPrintInfo kind width length recovery lowPower s
  | .pbEncode input => Sys2Proof.Machine.execPbEncode input s
  | .pbRecRun n v => Sys2Proof.Machine.execPbRecRun n v s
  | .pbRecLit n a => Sys2Proof.Machine.execPbRecLit n a s
  | .pbFallback => Sys2Proof.Machine.execPbFallback s
  | .sfParse => Sys2Proof.Machine.execSfParse s

end Sys2Proof.Machine
end

