-- ==== Sys2Proof/Machine/HostPort.lean ====
section
/-! DEFINITION. The host's side of the block: which lined-up action is next, what each access that is no request
does to the state (R26, R34, R50, R62, R220, R222), and how a table word is put where `step` takes its next
request. -/

namespace Sys2Proof.Machine

/-- The next action of the host and the state without it; none when nothing is lined up. -/
def State.fetch (s : State) : Option (HostAction × State) :=
  match s.inbox with
  | [] => none
  | a :: rest => some (a, { s with inbox := rest })

/-- What the decoder's rejection is as a refusal (R96). -/
def refusalOf : DecodeError → Refusal
  | .unknownOpSel sel => .unknownOpSel sel
  | e => .malformedRequest e

/-- The host writes received bytes into SIB (R26, R222); an index outside SIB does not exist (R56). -/
def State.writeSib (s : State) (start : Nat) (data : List Byte) : Host.Outcome State Fault Refusal :=
  if start + data.length ≤ Config.sibSize then
    .next { s with sfd := { s.sfd with sib := Memory.writeAll s.sfd.sib start data } }
  else .fault (.outOfSpace .sib (start + data.length - 1))

/-- The reset event (R220): every register and buffer of the instance at its reset value. What the host has still
lined up, the record of errors and the count of draws belong to the run, not to the instance (log entry 6). -/
def State.applyReset (s : State) : State :=
  { State.reset with inbox := s.inbox, errors := s.errors, draws := s.draws }

/-- A host read: the value goes to the host and no state changes (R55), or the read is a fault. -/
def State.observe {α : Type} (s : State) (value : Except Fault α) : Host.Outcome State Fault Refusal :=
  match value with
  | .ok _ => .next s
  | .error f => .fault f

/-- An access of the host between operations. -/
def State.host (s : State) (x : HostAccess) : Host.Outcome State Fault Refusal :=
  match x with
  | .writeSib start data => s.writeSib start data
  | .setCur value => .next { s with sfd := { s.sfd with cur := value } }
  | .setLim value => .next { s with sfd := { s.sfd with lim := value } }
  | .readPbo index => s.observe (s.hostPbo index)
  | .readCfo index => s.observe (s.hostCfo index)
  | .readStatus => s.observe s.hostStatus
  | .reset => .next s.applyReset

/-- The bytes of LINE with `data` from index 0 on. -/
def lineWith (line : Vector Byte 48) (data : List Byte) : Vector Byte 48 :=
  Vector.ofFn fun k => data.getD k.val (line.get k)

/-- What the layout of an instruction says of the state it is read in: a status frame is what SIB holds, a literal
record and the fallback are copies of LINE. The other layouts say nothing of the state. -/
def State.placeImage (s : State) (i : Instr) (image : List Byte) : State :=
  match i with
  | .sfParse =>
    { s with sfd := { s.sfd with sib := Memory.writeAll s.sfd.sib 0 (image.take Config.sfBytes), cur := 0,
                                 lim := Config.sfBytes } }
  | .pbRecLit n _ => { s with pbe := { s.pbe with line := lineWith s.pbe.line ((image.drop 1).take n) } }
  | .pbFallback =>
    { s with pbe := { s.pbe with line := lineWith s.pbe.line ((image.drop 1).take Config.lineBytes) } }
  | _ => s

/-- What makes an instruction the one the very next step runs: an operation is requested by the host, a record row is
the emission of PBE's sequencer. -/
def State.present (s : State) (i : Instr) : State :=
  match encode i with
  | some r => { s with inbox := .request r :: s.inbox, emission := none }
  | none => { s with emission := i.emission }

/-- The state whose next step runs the instruction a table word stands for; a word that stands for none is presented
as an empty request, which the decoder rejects. -/
def State.placeWord (s : State) (nbits w : Nat) : State :=
  match decodeTableWord nbits w with
  | some i => (s.placeImage i (tableImage nbits w)).present i
  | none => { s with inbox := .request (.numbered []) :: s.inbox, emission := none }

end Sys2Proof.Machine
end

