-- ==== Sys2Proof/Machine/Step.lean ====
section
/-! DEFINITION. One step of the block: the next action the host has lined up. A request is decoded and executed as
one atomic operation (R13); with nothing lined up the block is idle and keeps its registers (R207, R213). -/

namespace Sys2Proof.Machine

/-- One action of the host. -/
def State.answer (s : State) (a : HostAction) : Host.Outcome State Fault Refusal :=
  match a with
  | .request r =>
    match decode r with
    | .ok i => exec i s
    | .reject e => .refused (refusalOf e)
  | .access x => s.host x

/-- One step: the emission taken by itself where there is one (log entry 2), else the next action of the host. -/
def step (s : State) : Host.Outcome State Fault Refusal :=
  match s.emission, s.fetch with
  | some e, _ => exec e.toInstr { s with emission := none }
  | none, none => .next s
  | none, some (a, t) => t.answer a

/-- The state with a table word's instruction as the next action `step` takes (log entry 8). -/
def State.withFetchWord (s : State) (nbits w : Nat) : State := s.placeWord nbits w

end Sys2Proof.Machine
end

