-- ==== Sys2Proof/Safety.lean ====
section
/-! DEFINITION. The terms claims use: what a unit's operation may change, what a CFE operation's answer is, the
invariant of the state, and when the host has set SFD up. -/

namespace Sys2Proof.Machine

/-! ### Which unit an instruction is of (R1, R6) -/

/-- A CFE operation. -/
def isCfe : Instr → Bool
  | .cfVoid _ | .cfStatusReq | .cfInit | .cfSetMode _ | .cfSetMargin _ | .cfSetEnh _ | .cfSwitchMode _
  | .cfRaster _ _ | .cfZeroRaster | .cfPrintPreCut | .cfPrint | .cfPrintEvac | .cfSelComp _
  | .cfPrintInfo _ _ _ _ _ => true
  | .pbEncode _ | .pbRecRun _ _ | .pbRecLit _ _ | .pbFallback | .sfParse => false

/-- `PB.ENCODE` or one of PBE's record emissions. -/
def isPbe : Instr → Bool
  | .pbEncode _ | .pbRecRun _ _ | .pbRecLit _ _ | .pbFallback => true
  | .cfVoid _ | .cfStatusReq | .cfInit | .cfSetMode _ | .cfSetMargin _ | .cfSetEnh _ | .cfSwitchMode _
  | .cfRaster _ _ | .cfZeroRaster | .cfPrintPreCut | .cfPrint | .cfPrintEvac | .cfSelComp _
  | .cfPrintInfo _ _ _ _ _ | .sfParse => false

/-! ### Frames -/

/-- Only CFE and the record of errors may differ. -/
structure OnlyCfe (s t : State) : Prop where
  pbe   : t.pbe = s.pbe
  sfd   : t.sfd = s.sfd
  inbox : t.inbox = s.inbox
  emission : t.emission = s.emission
  draws : t.draws = s.draws

/-- Only PBE may differ. -/
structure OnlyPbe (s t : State) : Prop where
  cfe    : t.cfe = s.cfe
  sfd    : t.sfd = s.sfd
  inbox  : t.inbox = s.inbox
  emission : t.emission = s.emission
  errors : t.errors = s.errors
  draws  : t.draws = s.draws

/-- Only SFD, the record of errors and the count of draws may differ; SIB and LIM do not (R171). -/
structure OnlySfd (s t : State) : Prop where
  pbe   : t.pbe = s.pbe
  cfe   : t.cfe = s.cfe
  sib   : t.sfd.sib = s.sfd.sib
  lim   : t.sfd.lim = s.sfd.lim
  inbox : t.inbox = s.inbox
  emission : t.emission = s.emission

/-- `t` is the state after a CFE operation that ended with this frame (R140): the frame is CFO from index 0 on, its
length is CF_LEN, no other byte of CFO has a value, CF_ERR is 0 and CF_VALID is 1; CFI is as said, and nothing else
changed. -/
structure FrameAnswer (s t : State) (frame cfi : List Byte) : Prop where
  valid    : t.cfe.valid = true
  err      : t.cfe.err = 0#2
  len      : t.cfe.len = frame.length
  bytes    : ∀ k, Memory.read t.cfe.cfo k = frame[k]?
  response : t.cfResponse = some frame
  cfi      : t.cfe.cfi = cfi
  errors   : t.errors = s.errors
  others : OnlyCfe s t

/-- `t` is the state after a CFE operation that ended with InvalidArgument (R140, R199): CF_ERR is 1, CF_VALID and
CF_LEN are 0, no frame is delivered, the error is on the record; CFI is as said, and nothing else changed. -/
structure InvalidAnswer (s t : State) (cfi : List Byte) : Prop where
  valid    : t.cfe.valid = false
  err      : t.cfe.err = 1#2
  len      : t.cfe.len = 0
  response : t.cfResponse = none
  cfi      : t.cfe.cfi = cfi
  errors   : t.errors = s.errors ++ [.invalidArgument]
  others : OnlyCfe s t

/-- `exec i s` completes with this frame, CFI being left as it was. -/
def Delivers (i : Instr) (s : State) (frame : List Byte) : Prop :=
  ∃ t, exec i s = .next t ∧ FrameAnswer s t frame s.cfe.cfi

/-- `exec i s` ends with InvalidArgument, CFI being left as it was. -/
def Rejects (i : Instr) (s : State) : Prop := ∃ t, exec i s = .next t ∧ InvalidAnswer s t s.cfe.cfi

/-! ### PBE -/

/-- `t` is `s` with PBE's output changed as said and nothing else: a byte of PBO reads as `bytes` says. -/
structure EmissionAnswer (s t : State) (bytes : Nat → Option Byte) (len : Nat) (fb : Bool) : Prop where
  bytes : ∀ k, Memory.read t.pbe.pbo k = bytes k
  len   : t.pbe.len = len
  fb    : t.pbe.fb = fb
  pbi   : t.pbe.pbi = s.pbe.pbi
  line  : t.pbe.line = s.pbe.line
  regS  : t.pbe.s = s.pbe.s
  regI  : t.pbe.i = s.pbe.i
  mode  : t.pbe.mode = s.pbe.mode
  valid : t.pbe.valid = s.pbe.valid
  others : OnlyPbe s t

/-- `t` is `s` after `Fallback()` (R124): 2F, then the 48 bytes of LINE; PBO above index 48 as before. -/
def FallbackAnswer (s t : State) : Prop :=
  EmissionAnswer s t
    (fun k => if k = 0 then some 0x2F#8
      else if k ≤ 48 then s.pbe.line.toList[k - 1]? else Memory.read s.pbe.pbo k) 49 true

/-- Consecutive spans from index `k` on that end exactly at 48, none of them empty (R129 (a), (b)). -/
def Covers (k : Nat) : List Span → Prop
  | [] => k = 48
  | x :: rest => x.start = k ∧ 1 ≤ x.n ∧ Covers (k + x.n) rest

/-- What PB_VALID promises (R22, R24): the response is the result of a completed `PB.ENCODE` of the line, and
PB_FB says whether the guard fired. -/
def State.PbeResult (s : State) : Prop :=
  s.pbe.valid = true →
    s.pbe.line = normalise s.pbe.pbi ∧ s.pbResponse = some (encodeLine s.pbe.line) ∧
    s.pbe.fb = decide (49 < (normalPath s.pbe.line).length)

/-! ### SFD -/

/-- The window the host must have set up before `SF.PARSE` (R171, R222). -/
structure State.WindowReady (s : State) : Prop where
  cur : s.sfd.cur ≤ s.sfd.lim
  lim : s.sfd.lim ≤ Config.sibSize

/-- The 32 bytes `SF.PARSE` reads are the bytes `f 0 … f 31`, all written by the host. -/
structure State.FrameAt (s : State) (f : Nat → Byte) : Prop where
  window : s.WindowReady
  avail  : s.sfd.cur + 32 ≤ s.sfd.lim
  bytes  : ∀ k, k < 32 → Memory.read s.sfd.sib (s.sfd.cur + k) = some (f k)

/-- The eight field registers hold the fields of the frame `f 0 … f 31` (R177, R178, R181). -/
structure StatusFrame.Holds (x : StatusFrame) (f : Nat → Byte) : Prop where
  eec : x.eec = f 7
  ei  : x.ei = BitVec.ofNat 16 ((f 9).toNat * 256 + (f 8).toNat) &&& 0xDF5F#16
  mw  : x.mw = f 10
  mt  : x.mt = f 11
  ml  : x.ml = f 17
  st  : x.st = f 18
  pt  : x.pt = f 19
  pn  : x.pn.toNat = (f 20).toNat * 256 + (f 21).toNat

/-- The header magic `80 20 42 33 31 30 00` (R88). -/
def magic (k : Nat) : Byte := [0x80#8, 0x20#8, 0x42#8, 0x33#8, 0x31#8, 0x30#8, 0x00#8].getD k 0#8

/-- `t` is the state after a failed `SF.PARSE` (R184, R199): no field register is written, SF_VALID is 0, the error
is on the record, and the cursor stands in the range R184 states. -/
structure FailedParse (s t : State) (e : CodecError) : Prop where
  valid  : t.sfd.valid = false
  frame  : t.sfd.frame = s.sfd.frame
  curLow : s.sfd.cur ≤ t.sfd.cur
  curTop : t.sfd.cur ≤ min (s.sfd.cur + 32) s.sfd.lim
  errors : t.errors = s.errors ++ [e]
  others : OnlySfd s t

/-! ### The invariant -/

/-- The ranges and relations the spec states of the registers (R22, R25, R27, R28, R58, R140, R203), as they hold in
every state a step can leave: PBO and CFO hold exactly the bytes below their lengths, and no emission stands by itself
(R6). -/
structure State.Inv (s : State) : Prop where
  emission  : s.emission = none
  pboListed : s.pbe.pbo.map Prod.fst = List.range s.pbe.len
  pbLen     : s.pbe.len ≤ 49
  pbMin     : s.pbe.valid = true → 2 ≤ s.pbe.len
  pbFb      : s.pbe.fb = true → s.pbe.len = 49
  pbSpan    : s.pbe.s < s.pbe.i ∧ s.pbe.i ≤ 48
  pbMode    : s.pbe.mode = .lit → s.pbe.s + 2 ≤ s.pbe.i
  pbiLen    : s.pbe.pbi.length < 65536
  cfoListed : s.cfe.cfo.map Prod.fst = List.range s.cfe.len
  cfLen     : s.cfe.len ≤ 64
  cfErr     : s.cfe.err = 0#2 ∨ s.cfe.err = 1#2 ∧ s.cfe.valid = false ∧ s.cfe.len = 0
  cfiLen    : s.cfe.cfi.length < 65536
  sibWf     : Memory.wf s.sfd.sib
  sibIn     : ∀ c, c ∈ s.sfd.sib → c.1 < Config.sibSize
  sfUnused  : s.sfd.frame.ei &&& 0x20A0#16 = 0#16
  sfErr     : s.sfd.err = 0#2 ∨ s.sfd.valid = false ∧ (s.sfd.err = 2#2 ∨ s.sfd.err = 3#2)
  sfInfo    : s.sfd.err = 2#2 ∨
    s.sfd.ekind = 0#2 ∧ s.sfd.eoff = 0#3 ∧ s.sfd.eexp = 0#8 ∧ s.sfd.eact = 0#8
  sfKind    : s.sfd.err = 2#2 → s.sfd.ekind ≠ 0#2 ∧ s.sfd.eoff.toNat ≤ 6 ∧ s.sfd.eact ≠ s.sfd.eexp

/-- A step that has a next state. -/
def Safe (s : State) : Prop := ∃ t, step s = .next t

end Sys2Proof.Machine
end

