-- ==== Sys2Proof/Certificates/Slice0/Obligations.lean ====
section
/-! DEFINITION. The statements for the provers. Every one is over all states and operands that meet its
hypotheses; the numbers of the spec are written out in the statements and not taken from the model's tables. -/

open Sys2Proof Sys2Proof.Machine

/-! ### Encoding and decoding -/

/-- Decoding the request of a well-formed instruction gives the instruction back, every operand at every value; the
instructions that no request carries are the three record rows. The selector values and operand types are R95's and
R35's; the order of the operand bytes is the model's own (DESIGN CHOICE, log entry 1). -/
def Obligations.RequestDecodesBackFromItsEncoding : Prop :=
  ∀ i : Instr, i.WellFormed →
    (∀ r, encode i = some r → decode r = .ok i) ∧
    (encode i = none ↔ (∃ n v, i = .pbRecRun n v) ∨ (∃ n a, i = .pbRecLit n a) ∨ i = .pbFallback)

/-- The other direction: what the decoder accepts is well formed, is the one spelling of that request (log entry 1),
and is one of the sixteen operations (R6: no other operation exists). -/
def Obligations.DecodedRequestIsWellFormedAndUnique : Prop :=
  ∀ (r : Request) (i : Instr), decode r = .ok i →
    i.WellFormed ∧ encode i = some r ∧ (isCfe i = true ∨ (∃ input, i = .pbEncode input) ∨ i = .sfParse)

/-- R87: the operation that produced a command frame can be read from the frame, operands included; of `CF.VOID` the
clamped count is what its frame says. The image goes on with zero bytes after the frame. -/
def Obligations.CommandFrameNamesItsOperation : Prop :=
  ∀ (i : Instr) (f : List Byte), isCfe i = true → i.WellFormed → layout i = some f →
    readLayout f.length (f ++ List.replicate 64 0#8) = some (canonical i)

/-- Words written out from the layouts of R79, R88 and R73 decode to the operation they stand for. That a table word
is read back as an operation at all is the model's choice (log entry 3). -/
def Obligations.TableWordsDecodeToTheirOperations : Prop :=
  decodeTableWord 24 0x1B6953 = some .cfStatusReq ∧
  decodeTableWord 32 0x1B694D40 = some (.cfSetMode (.member ⟨true, false⟩)) ∧
  decodeTableWord 40 0x1B69642301 = some (.cfSetMargin 0x0123#16) ∧
  decodeTableWord 48 0x470300FF0081 = some (.cfRaster (.member .none) [0xFF#8, 0x00#8, 0x81#8]) ∧
  decodeTableWord 16 0x4D02 = some (.cfSelComp (.member .tiff)) ∧
  decodeTableWord 64 0x1B6963F601180000 =
    some (.cfPrintInfo (some (.member .laminate)) (some 0x18#8) none true 0#8) ∧
  decodeTableWord 16 0xED00 = some (.pbRecRun 20 0x00#8) ∧
  decodeTableWord 256 0x8020423331300000000000000000000000000000000000000000000000000000 = some .sfParse

/-- R95: each `op_sel` value of the table selects its operation, and no other value selects it (the spec's decision
D2). -/
def Obligations.SelectorsNameDistinctOperations : Prop :=
  ∀ (o : Operation) (sel : Byte), Operation.ofSel sel = some o ↔
    sel = match o with
      | .cfVoid => 0x00#8
      | .cfStatusReq => 0x01#8
      | .cfInit => 0x02#8
      | .cfSetMode => 0x03#8
      | .cfSetMargin => 0x04#8
      | .cfSetEnh => 0x05#8
      | .cfSwitchMode => 0x06#8
      | .cfRaster => 0x07#8
      | .cfZeroRaster => 0x08#8
      | .cfPrintPreCut => 0x09#8
      | .cfPrint => 0x0A#8
      | .cfPrintEvac => 0x0B#8
      | .cfSelComp => 0x0C#8
      | .cfPrintInfo => 0x0D#8
      | .pbEncode => 0x10#8
      | .sfParse => 0x20#8

/-- R96: an `op_sel` value not in the table selects no operation; the request is refused, whatever its operands
(the spec's decision D2). -/
def Obligations.UnknownSelectorIsRefused : Prop :=
  ∀ (s : State) (sel : Byte) (operands : List Byte) (rest : List HostAction),
    sel ∉ [0x00#8, 0x01#8, 0x02#8, 0x03#8, 0x04#8, 0x05#8, 0x06#8, 0x07#8, 0x08#8, 0x09#8, 0x0A#8, 0x0B#8, 0x0C#8,
      0x0D#8, 0x10#8, 0x20#8] →
    s.emission = none → s.inbox = .request (.numbered (sel :: operands)) :: rest → step s = .refused (.unknownOpSel sel)

/-! ### The step -/

/-- A step runs the decoded instruction: the request that is next is taken out of the inbox, and the step is `exec`
of the instruction it decodes to. Where an emission stands by itself (which no step leaves, log entry 2), the step is
`exec` of its record row. -/
def Obligations.StepRunsTheDecodedRequest : Prop :=
  (∀ (s : State) (r : Request) (rest : List HostAction) (i : Instr), s.emission = none →
    s.inbox = .request r :: rest → decode r = .ok i → step s = exec i { s with inbox := rest }) ∧
  (∀ (s : State) (e : Emission), s.emission = some e → step s = exec e.toInstr { s with emission := none })

/-- R207, R213: nothing happens in the block except in answer to the host; idle, it keeps its registers. -/
def Obligations.IdleBlockKeepsItsState : Prop := ∀ s : State, s.emission = none → s.inbox = [] → step s = .next s

/-- An opcode-table word that decodes is run by the very next step, in the state its layout is placed in (the model's
choice, log entries 3 and 8). -/
def Obligations.TableWordIsRunByTheNextStep : Prop :=
  ∀ (s : State) (nbits w : Nat) (i : Instr), decodeTableWord nbits w = some i →
    step (s.withFetchWord nbits w) = exec i { s.placeImage i (tableImage nbits w) with emission := none }

/-- R229, R68: every CFE operation and every `PB.ENCODE` completes in every state; `SF.PARSE` completes in every state
the host has set up for it, whether or not enough bytes are available. -/
def Obligations.EveryRequestGetsAResponse : Prop :=
  (∀ (i : Instr) (s : State), isCfe i = true → ∃ t, exec i s = .next t) ∧
  (∀ (input : List Byte) (s : State), ∃ t, exec (.pbEncode input) s = .next t) ∧
  (∀ s : State, s.WindowReady →
    (∀ a, s.sfd.cur ≤ a → a < s.sfd.lim → (Memory.read s.sfd.sib a).isSome = true) →
    ∃ t, exec .sfParse s = .next t)

/-! ### Reset -/

/-- R220: the reset event puts every register of the instance at its reset value; PBO, CFO and SIB then hold no
defined byte (the spec's decision D14). What else is lined up, the record of errors and the count of draws are kept
(the model's choice, log entry 6). -/
def Obligations.ResetPutsEveryRegisterAtItsResetValue : Prop :=
  ∀ (s : State) (rest : List HostAction), s.emission = none → s.inbox = .access .reset :: rest →
    ∃ t, step s = .next t ∧
      t.pbe.valid = false ∧ t.pbe.fb = false ∧ t.pbe.len = 0 ∧ t.pbe.s = 0 ∧ t.pbe.i = 1 ∧ t.pbe.mode = .run ∧
      (∀ k, k < 48 → lineByte t.pbe.line k = 0#8) ∧ (∀ k, Memory.read t.pbe.pbo k = none) ∧
      t.cfe.valid = false ∧ t.cfe.err = 0#2 ∧ t.cfe.len = 0 ∧ (∀ k, Memory.read t.cfe.cfo k = none) ∧
      t.sfd.valid = false ∧ t.sfd.err = 0#2 ∧ t.sfd.ekind = 0#2 ∧ t.sfd.eoff = 0#3 ∧ t.sfd.eexp = 0#8 ∧
      t.sfd.eact = 0#8 ∧ t.sfd.cur = 0 ∧ t.sfd.lim = 0 ∧ (∀ k, Memory.read t.sfd.sib k = none) ∧
      t.inbox = rest ∧ t.errors = s.errors ∧ t.draws = s.draws

/-- R221: the response of a CFE operation or of `PB.ENCODE` is the same whether or not a reset came before it. -/
def Obligations.ResetIsUnobservableThroughOperations : Prop :=
  ∀ (i : Instr) (s t t' : State), exec i s = .next t → exec i s.applyReset = .next t' →
    (isCfe i = true → t.cfResponse = t'.cfResponse ∧ t.cfe.err = t'.cfe.err) ∧
    (∀ input, i = .pbEncode input → t.pbResponse = t'.pbResponse ∧ t.pbe.fb = t'.pbe.fb)

/-! ### CFE -/

/-- R142, R143, R149 to R152: the six operations without operands deliver their fixed frames, and nothing but CFE's
output changes. -/
def Obligations.FixedCommandsDeliverTheirFrames : Prop :=
  ∀ s : State,
    Delivers .cfStatusReq s [0x1B#8, 0x69#8, 0x53#8] ∧
    Delivers .cfInit s [0x1B#8, 0x40#8] ∧
    Delivers .cfZeroRaster s [0x5A#8] ∧
    Delivers .cfPrintPreCut s [0x0B#8] ∧
    Delivers .cfPrint s [0x0C#8] ∧
    Delivers .cfPrintEvac s [0x1A#8]

/-- R141: `CF.VOID` delivers `c` zero bytes, `c` being the signed count clamped to [0, 64] (the 32 bits of the
port are the spec's decision D10). -/
def Obligations.VoidDeliversTheClampedCountOfZeros : Prop :=
  ∀ (count : BitVec 32) (s : State),
    Delivers (.cfVoid count) s (List.replicate (max 0 (min 64 count.toInt)).toNat 0x00#8) ∧
    (count.toInt ≤ 0 → Delivers (.cfVoid count) s []) ∧
    (64 ≤ count.toInt → Delivers (.cfVoid count) s (List.replicate 64 0x00#8))

/-- R144: `CF.SETMODE` delivers `1B 69 4D` and the OR of the members' masks (which flag is bit 6 and which bit 7 is
the spec's decision D4). -/
def Obligations.SetModeDeliversTheModeBits : Prop :=
  ∀ (autoTapeCut mirror : Bool) (s : State),
    Delivers (.cfSetMode (.member ⟨autoTapeCut, mirror⟩)) s
      [0x1B#8, 0x69#8, 0x4D#8, (if autoTapeCut then 0x40#8 else 0#8) ||| (if mirror then 0x80#8 else 0#8)]

/-- R145: `CF.SETMARGIN` delivers `1B 69 64` and the margin, low byte first. -/
def Obligations.SetMarginDeliversTheMarginLowByteFirst : Prop :=
  ∀ (margin : BitVec 16) (s : State),
    Delivers (.cfSetMargin margin) s
      [0x1B#8, 0x69#8, 0x64#8, BitVec.ofNat 8 margin.toNat, BitVec.ofNat 8 (margin.toNat / 256)]

/-- R146: `CF.SETENH` delivers `1B 69 4B` and a byte with the members' bits, whose bits 0, 1 and 4 are 0. -/
def Obligations.SetEnhancedDeliversTheEnhancedBits : Prop :=
  ∀ (halfCut nonChain cutOnChain fine copy : Bool) (s : State),
    ∃ e : Byte,
      Delivers (.cfSetEnh (.member ⟨halfCut, nonChain, cutOnChain, fine, copy⟩)) s [0x1B#8, 0x69#8, 0x4B#8, e] ∧
      e = (if halfCut then 0x04#8 else 0#8) ||| (if nonChain then 0x08#8 else 0#8) |||
        (if cutOnChain then 0x20#8 else 0#8) ||| (if fine then 0x40#8 else 0#8) |||
        (if copy then 0x80#8 else 0#8) ∧
      e.getLsbD 0 = false ∧ e.getLsbD 1 = false ∧ e.getLsbD 4 = false

/-- R147: `CF.SWITCHMODE` delivers `1B 69 61` and the CommandMode value. -/
def Obligations.SwitchModeDeliversTheCommandMode : Prop :=
  ∀ s : State,
    Delivers (.cfSwitchMode (.member .escP)) s [0x1B#8, 0x69#8, 0x61#8, 0x00#8] ∧
    Delivers (.cfSwitchMode (.member .raster)) s [0x1B#8, 0x69#8, 0x61#8, 0x01#8]

/-- R153: `CF.SELCOMP` delivers `4D` and the CompressionMode value; both members are accepted. -/
def Obligations.SelectCompressionDeliversTheMode : Prop :=
  ∀ s : State,
    Delivers (.cfSelComp (.member .none)) s [0x4D#8, 0x00#8] ∧
    Delivers (.cfSelComp (.member .tiff)) s [0x4D#8, 0x02#8]

/-- R148: `CF.RASTER` with NONE and at most 61 bytes delivers `47`, the byte count low byte first, and the line; with
TIFF, or with more than 61 bytes (the spec's decision D11), it ends with InvalidArgument and no frame (D7). CFI holds
the line (log entry 21). -/
def Obligations.RasterFramesUncompressedLinesUpTo61Bytes : Prop :=
  ∀ (line : List Byte) (s : State),
    (line.length ≤ 61 →
      ∃ t, exec (.cfRaster (.member .none) line) s = .next t ∧
        FrameAnswer s t (0x47#8 :: BitVec.ofNat 8 line.length :: 0x00#8 :: line) line) ∧
    (61 < line.length →
      ∃ t, exec (.cfRaster (.member .none) line) s = .next t ∧ InvalidAnswer s t line) ∧
    (∃ t, exec (.cfRaster (.member .tiff) line) s = .next t ∧ InvalidAnswer s t line)

/-- R154: `CF.PRINTINFO` delivers `1B 69 63`, the presence mask, the three optional fields (0 when absent) and the
lowPower byte (mask bit 0 and the byte types are the spec's decision D12). -/
def Obligations.PrintInfoDeliversMaskAndFields : Prop :=
  ∀ (kind : Option PaperKind) (width length : Option Byte) (recovery : Bool) (lowPower : Byte) (s : State),
    Delivers (.cfPrintInfo (kind.map .member) width length recovery lowPower) s
      [0x1B#8, 0x69#8, 0x63#8,
       (if kind.isSome then 0x02#8 else 0#8) ||| (if width.isSome then 0x04#8 else 0#8) |||
         (if length.isSome then 0x08#8 else 0#8) ||| (if recovery then 0xF0#8 else 0#8),
       match kind with
       | none => 0x00#8
       | some .unknown => 0x00#8
       | some .laminate => 0x01#8
       | some .lettering => 0x02#8
       | some .nonLaminate => 0x03#8
       | some .hg => 0x09#8
       | some .sz => 0x10#8,
       width.getD 0x00#8, length.getD 0x00#8, lowPower]

/-- R155: at a raw-byte port, a value outside the closed set raises InvalidArgument and no frame is produced (the
spec's decision D13). -/
def Obligations.RawOperandOutsideItsSetIsInvalid : Prop :=
  ∀ (b : Byte) (s : State),
    (b ∉ [0x00#8, 0x01#8] → Rejects (.cfSwitchMode (.rawByte b)) s) ∧
    (b ∉ [0x00#8, 0x02#8] → Rejects (.cfSelComp (.rawByte b)) s ∧
      ∀ line, ∃ t, exec (.cfRaster (.rawByte b) line) s = .next t ∧ InvalidAnswer s t line) ∧
    (b ∉ [0x00#8, 0x01#8, 0x02#8, 0x03#8, 0x09#8, 0x10#8] →
      ∀ width length recovery lowPower,
        Rejects (.cfPrintInfo (some (.rawByte b)) width length recovery lowPower) s) ∧
    ((∃ k, k < 6 ∧ b.getLsbD k = true) → Rejects (.cfSetMode (.rawByte b)) s) ∧
    (b.getLsbD 0 = true ∨ b.getLsbD 1 = true ∨ b.getLsbD 4 = true → Rejects (.cfSetEnh (.rawByte b)) s)

/-- A raw byte that is the wire value of a member (R80 to R84) is that member's request (log entry 15). -/
def Obligations.RawOperandInsideItsSetIsTheMember : Prop :=
  ∀ s : State,
    (∀ m : CommandMode, exec (.cfSwitchMode (.rawByte m.wire)) s = exec (.cfSwitchMode (.member m)) s) ∧
    (∀ m : CompressionMode, exec (.cfSelComp (.rawByte m.wire)) s = exec (.cfSelComp (.member m)) s ∧
      ∀ line, exec (.cfRaster (.rawByte m.wire) line) s = exec (.cfRaster (.member m) line) s) ∧
    (∀ (k : PaperKind) (width length : Option Byte) (recovery : Bool) (lowPower : Byte),
      exec (.cfPrintInfo (some (.rawByte k.wire)) width length recovery lowPower) s =
        exec (.cfPrintInfo (some (.member k)) width length recovery lowPower) s) ∧
    (∀ m : ModeSet, exec (.cfSetMode (.rawByte m.wire)) s = exec (.cfSetMode (.member m)) s) ∧
    (∀ e : EnhancedSet, exec (.cfSetEnh (.rawByte e.wire)) s = exec (.cfSetEnh (.member e)) s)

/-- R79: what a CFE operation delivers is its layout in the opcode table, for every request that has a frame. -/
def Obligations.EveryCommandDeliversItsTableLayout : Prop :=
  ∀ (i : Instr) (f : List Byte) (s : State), isCfe i = true → layout i = some f →
    ∃ t, exec i s = .next t ∧ FrameAnswer s t f t.cfe.cfi ∧
      (∀ comp line, i = .cfRaster comp line → t.cfe.cfi = line) ∧
      ((∀ comp line, i ≠ .cfRaster comp line) → t.cfe.cfi = s.cfe.cfi)

/-- R140: CF_LEN is at most 64 after every CFE operation, and the response is a function of the operands alone. -/
def Obligations.CommandResponseDependsOnOperandsAlone : Prop :=
  ∀ (i : Instr) (s s' : State), isCfe i = true →
    ∃ t t', exec i s = .next t ∧ exec i s' = .next t' ∧ t.cfe.len ≤ 64 ∧
      t.cfResponse = t'.cfResponse ∧ t.cfe.len = t'.cfe.len ∧ t.cfe.err = t'.cfe.err ∧ t.cfe.valid = t'.cfe.valid

/-! ### PBE -/

/-- R111: `PB.ENCODE` leaves in LINE the input normalised to 48 bytes, zero-padded or truncated; PBI holds the
input. -/
def Obligations.EncodeNormalisesTheLine : Prop :=
  ∀ (input : List Byte) (s : State), ∃ t, exec (.pbEncode input) s = .next t ∧ t.pbe.pbi = input ∧
    ∀ k, k < 48 → lineByte t.pbe.line k = if h : k < input.length then input[k] else 0x00#8

/-- R133: `PB.ENCODE` raises no error on any input, in any state; nothing but PBE's registers and buffers changes. -/
def Obligations.EncodeIsTotalAndRaisesNoError : Prop :=
  ∀ (input : List Byte) (s : State), ∃ t, exec (.pbEncode input) s = .next t ∧ t.pbe.valid = true ∧ OnlyPbe s t

/-- R127: the state machine and the functional form agree: the response is the records of the spans when they are at
most 49 bytes, else the fallback, and PB_FB says which (the limit 49 is the spec's decision D3, log entry 14). -/
def Obligations.EncodeMeetsItsFunctionalForm : Prop :=
  ∀ (input : List Byte) (s : State), ∃ t, exec (.pbEncode input) s = .next t ∧
    t.pbResponse = some (encodeLine (normalise input)) ∧
    t.pbe.len = (encodeLine (normalise input)).length ∧
    t.pbe.fb = decide (49 < (normalPath (normalise input)).length)

/-- R128: the output is 2 to 49 bytes, and 2 exactly when all 48 bytes of LINE are equal. -/
def Obligations.EncodeOutputIsTwoTo49Bytes : Prop :=
  ∀ (input : List Byte) (s : State), ∃ t out, exec (.pbEncode input) s = .next t ∧
    t.pbResponse = some out ∧ out.length = t.pbe.len ∧ 2 ≤ out.length ∧ out.length ≤ 49 ∧
    (out.length = 2 ↔ ∀ k, k < 48 → lineByte (normalise input) k = lineByte (normalise input) 0)

/-- R132: expanding the response gives the normalised line back, on the normal path and on the fallback. -/
def Obligations.EncodeExpandsBackToTheLine : Prop :=
  ∀ (input : List Byte) (s : State), ∃ t out, exec (.pbEncode input) s = .next t ∧
    t.pbResponse = some out ∧ expand out = some (normalise input).toList

/-- R135: the result is a function of the normalised line alone; it does not depend on any earlier operation, on PBO's
old contents, or on any other unit. -/
def Obligations.EncodeDependsOnTheNormalisedLineAlone : Prop :=
  ∀ (input input' : List Byte) (s s' : State), normalise input = normalise input' →
    ∃ t t', exec (.pbEncode input) s = .next t ∧ exec (.pbEncode input') s' = .next t' ∧
      t.pbResponse = t'.pbResponse ∧ t.pbe.len = t'.pbe.len ∧ t.pbe.fb = t'.pbe.fb

/-- R129 (a), (b): the spans of the normal path partition the indices 0..47 in order, and none is empty. -/
def Obligations.SpansPartitionTheLine : Prop := ∀ line : Vector Byte 48, Covers 0 (spans line)

/-- R129 (f), (g): a run span's bytes are all equal and the run is maximal; every two adjacent bytes of a literal span
differ. -/
def Obligations.SpanBytesMatchTheirKind : Prop :=
  ∀ (line : Vector Byte 48) (x : Span), x ∈ spans line →
    (x.kind = .run →
      (∀ k, k < x.n → lineByte line (x.start + k) = lineByte line x.start) ∧
      (0 < x.start → lineByte line (x.start - 1) ≠ lineByte line x.start) ∧
      (x.start + x.n < 48 → lineByte line (x.start + x.n) ≠ lineByte line x.start)) ∧
    (x.kind = .lit →
      ∀ k, k + 1 < x.n → lineByte line (x.start + k) ≠ lineByte line (x.start + k + 1))

/-- R120: `EmitRun(N, v)` where the guard passes: `(257 - N) mod 256` and `v` at the end of PBO, PB_LEN advanced by
2; everything else is as before. That a length of exactly 49 passes is the spec's decision D3 (log entry 14), and that
an emission can be taken by itself is the model's choice (log entry 2). -/
def Obligations.RunEmissionAppendsItsTwoBytes : Prop :=
  ∀ (n : Nat) (v : Byte) (s : State), 1 ≤ n → n ≤ 48 → s.pbe.len + 2 ≤ 49 →
    ∃ t, exec (.pbRecRun n v) s = .next t ∧
      EmissionAnswer s t
        (fun k => if k = s.pbe.len then some (BitVec.ofNat 8 ((257 - n) % 256))
          else if k = s.pbe.len + 1 then some v else Memory.read s.pbe.pbo k)
        (s.pbe.len + 2) s.pbe.fb

/-- R121: `EmitLit(N, a)` where the guard passes: `N - 1` and the N bytes of LINE from `a` at the end of PBO, PB_LEN
advanced by N + 1; everything else is as before (D3 and log entries 2 and 14, as for the run). -/
def Obligations.LiteralEmissionAppendsItsBytes : Prop :=
  ∀ (n a : Nat) (s : State), 1 ≤ n → n ≤ 48 → a + n ≤ 48 → s.pbe.len + n + 1 ≤ 49 →
    ∃ t, exec (.pbRecLit n a) s = .next t ∧
      EmissionAnswer s t
        (fun k => if k = s.pbe.len then some (BitVec.ofNat 8 (n - 1))
          else if s.pbe.len < k ∧ k ≤ s.pbe.len + n then some (lineByte s.pbe.line (a + (k - s.pbe.len - 1)))
          else Memory.read s.pbe.pbo k)
        (s.pbe.len + n + 1) s.pbe.fb

/-- R124: `Fallback()` writes 2F and the 48 bytes of LINE from index 0, sets PB_LEN to 49 and PB_FB to 1. That it can
be taken by itself is the model's choice (log entry 2). -/
def Obligations.FallbackWritesTheWholeLine : Prop :=
  ∀ s : State, ∃ t, exec .pbFallback s = .next t ∧ FallbackAnswer s t

/-- R123: the guard fires exactly above 49: a record that would bring the length above 49 is not appended, the
fallback is written instead (the limit is the spec's decision D3, log entry 14). -/
def Obligations.GuardReplacesTheOutputAbove49 : Prop :=
  ∀ s : State,
    (∀ (n : Nat) (v : Byte), 1 ≤ n → n ≤ 48 → 49 < s.pbe.len + 2 →
      ∃ t, exec (.pbRecRun n v) s = .next t ∧ FallbackAnswer s t) ∧
    (∀ n a : Nat, 1 ≤ n → n ≤ 48 → a + n ≤ 48 → 49 < s.pbe.len + n + 1 →
      ∃ t, exec (.pbRecLit n a) s = .next t ∧ FallbackAnswer s t)

/-- An emission outside the span R120 and R121 give it is refused (the model's choice, log entry 2). -/
def Obligations.EmissionOutsideItsSpanIsRefused : Prop :=
  (∀ (n : Nat) (v : Byte) (s : State), n = 0 ∨ 48 < n → exec (.pbRecRun n v) s = .refused (.emissionRange n 0)) ∧
  (∀ (n a : Nat) (s : State), n = 0 ∨ 48 < n ∨ 48 < a + n →
    exec (.pbRecLit n a) s = .refused (.emissionRange n a))

/-- R122: the control bytes as signed and unsigned numbers, for every span length PBE can emit. -/
def Obligations.ControlBytesStoreCountMinusOne : Prop :=
  ∀ n : Nat, 1 ≤ n → n ≤ 48 →
    sbyte (ctrlRun n) = -((n : Int) - 1) ∧ sbyte (ctrlLit n) = (n : Int) - 1 ∧
    (ctrlLit n).toNat = n - 1 ∧ (n = 1 → ctrlRun n = 0x00#8) ∧ (2 ≤ n → (ctrlRun n).toNat = 257 - n)

/-! ### SFD -/

/-- R177, R178, R181, R183: with 32 written bytes available and a correct header `SF.PARSE` succeeds: the eight field
registers, the cursor 32 further, the error registers 0, and nothing else changed. That the unused ErrorInfo bits are dropped is
the spec's decision D5. -/
def Obligations.ParseExtractsTheFields : Prop :=
  ∀ (s : State) (f : Nat → Byte), s.FrameAt f → (∀ k, k < 7 → f k = magic k) →
    ∃ t, exec .sfParse s = .next t ∧ t.sfd.valid = true ∧
      t.sfd.frame.eec = f 7 ∧
      t.sfd.frame.ei = BitVec.ofNat 16 ((f 9).toNat * 256 + (f 8).toNat) &&& 0xDF5F#16 ∧
      t.sfd.frame.mw = f 10 ∧ t.sfd.frame.mt = f 11 ∧ t.sfd.frame.ml = f 17 ∧ t.sfd.frame.st = f 18 ∧
      t.sfd.frame.pt = f 19 ∧ t.sfd.frame.pn.toNat = (f 20).toNat * 256 + (f 21).toNat ∧
      t.sfd.cur = s.sfd.cur + 32 ∧
      t.sfd.err = 0#2 ∧ t.sfd.ekind = 0#2 ∧ t.sfd.eoff = 0#3 ∧ t.sfd.eexp = 0#8 ∧ t.sfd.eact = 0#8 ∧
      t.errors = s.errors ∧ t.draws = s.draws ∧ OnlySfd s t

/-- R172, R198: fewer than 32 available bytes are BufferUnderflow, whatever SIB holds: no byte is examined (the
code 3 is the spec's decision D6). -/
def Obligations.ShortInputIsBufferUnderflow : Prop :=
  ∀ s : State, s.WindowReady → s.sfd.lim - s.sfd.cur < 32 →
    ∃ t, exec .sfParse s = .next t ∧ t.sfd.err = 3#2 ∧ t.sfd.ekind = 0#2 ∧ t.sfd.eoff = 0#3 ∧ t.sfd.eexp = 0#8 ∧
      t.sfd.eact = 0#8 ∧ FailedParse s t .bufferUnderflow

/-- R173, R174, R175: the lowest header byte that differs from the magic decides the FormatError: its kind, offset,
expected and actual value (one error for the lowest offset is the spec's decision D9, the codes are D6). -/
def Obligations.FirstWrongHeaderByteIsFormatError : Prop :=
  ∀ (s : State) (f : Nat → Byte) (j : Nat), s.FrameAt f → j < 7 → (∀ k, k < j → f k = magic k) → f j ≠ magic j →
    ∃ t kind, exec .sfParse s = .next t ∧ t.sfd.err = 2#2 ∧
      kind = (if j = 0 then FormatKind.missingHeaderMarker else if j = 1 then .invalidSize else .invalidValue) ∧
      t.sfd.ekind = (if j = 0 then 1#2 else if j = 1 then 2#2 else 3#2) ∧
      t.sfd.eoff.toNat = j ∧ t.sfd.eexp = magic j ∧ t.sfd.eact = f j ∧
      FailedParse s t (.formatError kind j (magic j) (f j))

/-- R184: after any failed parse the field registers are as before and the cursor stands from CUR at entry to
`min(CUR + 32, LIM)`, whatever the free draw is (log entry 5). -/
def Obligations.FailedParseKeepsFieldsAndBoundsTheCursor : Prop :=
  ∀ s t : State, exec .sfParse s = .next t → t.sfd.valid = false →
    t.sfd.frame = s.sfd.frame ∧ s.sfd.cur ≤ t.sfd.cur ∧ t.sfd.cur ≤ min (s.sfd.cur + 32) s.sfd.lim ∧
    t.sfd.cur ≤ t.sfd.lim

/-- U16: a request for `SF.PARSE` with CUR > LIM or LIM > SIB_SIZE is refused (93_implementation_defined.md: the
host broke the set-up of R222). -/
def Obligations.ParseRefusesABrokenWindow : Prop :=
  ∀ s : State, s.sfd.lim < s.sfd.cur ∨ Config.sibSize < s.sfd.lim →
    exec .sfParse s = .refused (.hostSetup s.sfd.cur s.sfd.lim)

/-- U10, R32: where one of the 32 bytes was never written, `SF.PARSE` reads no value for it and stops at the first
such byte (the spec's decision D14, log entries 7 and 11). -/
def Obligations.ParseFaultsOnAnUnwrittenByte : Prop :=
  ∀ (s : State) (j : Nat), s.WindowReady → s.sfd.cur + 32 ≤ s.sfd.lim → j < 32 →
    (∀ k, k < j → (Memory.read s.sfd.sib (s.sfd.cur + k)).isSome = true) →
    Memory.read s.sfd.sib (s.sfd.cur + j) = none →
    exec .sfParse s = .fault (.unspecifiedByte .sib (s.sfd.cur + j))

/-- R182: two frames that differ only in the reserved bytes 12..16 and 22..31 or in the unused ErrorInfo bits give
identical responses. -/
def Obligations.ReservedBytesAndBitsHaveNoEffect : Prop :=
  ∀ (s s' : State) (f g : Nat → Byte), s.FrameAt f → s'.FrameAt g →
    s'.sfd.cur = s.sfd.cur → s'.sfd.lim = s.sfd.lim → s'.sfd.frame = s.sfd.frame → s'.draws = s.draws →
    (∀ k, k < 32 → k ≠ 8 → k ≠ 9 → ¬ (12 ≤ k ∧ k ≤ 16) → k < 22 → f k = g k) →
    f 8 &&& 0x5F#8 = g 8 &&& 0x5F#8 → f 9 &&& 0xDF#8 = g 9 &&& 0xDF#8 →
    ∃ t t', exec .sfParse s = .next t ∧ exec .sfParse s' = .next t' ∧
      t'.sfd = { t.sfd with sib := s'.sfd.sib }

/-- R179: each named flag is its bit of SF_EI, and errorInfoSet is the set of the flags whose bit is 1. -/
def Obligations.NamedFlagsAreTheirBits : Prop :=
  ∀ ei : BitVec 16,
    ErrorFlag.noMedia.output ei = ei.getLsbD 0 ∧ ErrorFlag.mediaEnd.output ei = ei.getLsbD 1 ∧
    ErrorFlag.cutterJam.output ei = ei.getLsbD 2 ∧ ErrorFlag.lowBattery.output ei = ei.getLsbD 3 ∧
    ErrorFlag.busy.output ei = ei.getLsbD 4 ∧ ErrorFlag.highVoltageAdapter.output ei = ei.getLsbD 6 ∧
    ErrorFlag.mediaChange.output ei = ei.getLsbD 8 ∧ ErrorFlag.expansionBufferFull.output ei = ei.getLsbD 9 ∧
    ErrorFlag.communicationError.output ei = ei.getLsbD 10 ∧
    ErrorFlag.communicationBufferFull.output ei = ei.getLsbD 11 ∧ ErrorFlag.coverOpen.output ei = ei.getLsbD 12 ∧
    ErrorFlag.headDetectionError.output ei = ei.getLsbD 14 ∧ ErrorFlag.rfidError.output ei = ei.getLsbD 15 ∧
    ∀ f : ErrorFlag, f ∈ errorInfoSet ei ↔ f.output ei = true

/-- R178, R180: a named flag of a received frame is its bit of byte 8 or byte 9, whatever the unused bits hold, and
the bits 5, 7 and 13 of SF_EI are 0 (the spec's decision D5). -/
def Obligations.ErrorInfoKeepsNamedBitsAndDropsUnused : Prop :=
  ∀ low high : Byte,
    (∀ f : ErrorFlag, f.output (errorInfo low high) =
      if f.bit < 8 then low.getLsbD f.bit else high.getLsbD (f.bit - 8)) ∧
    (errorInfo low high).getLsbD 5 = false ∧ (errorInfo low high).getLsbD 7 = false ∧
    (errorInfo low high).getLsbD 13 = false

/-! ### Whole-machine rules -/

/-- The field registers change only all together, in a successful `SF.PARSE`, which makes them the fields of
the 32 bytes at CUR, or in a reset: R188 and R27 say that only that operation writes them, R177, R178 and R181 what it
writes, and that the unused ErrorInfo bits are dropped is the spec's decision D5 (log entry 19). -/
def Obligations.StatusFieldsChangeOnlyByASuccessfulParse : Prop :=
  ∀ s t : State, step s = .next t →
    t.sfd.frame = s.sfd.frame ∨
    (∃ rest, s.inbox = .access .reset :: rest) ∨
    (∃ r rest f, s.inbox = .request r :: rest ∧ decode r = .ok .sfParse ∧ t.sfd.valid = true ∧
      s.FrameAt f ∧ (∀ k, k < 7 → f k = magic k) ∧ t.sfd.frame.Holds f)

/-- R50, R171: SIB and LIM are written by the host only: no operation changes them. -/
def Obligations.OperationsNeverWriteSibOrLim : Prop :=
  ∀ (i : Instr) (s t : State), exec i s = .next t → t.sfd.sib = s.sfd.sib ∧ t.sfd.lim = s.sfd.lim

/-- R201: which operation can raise which error. -/
def Obligations.ErrorsAreRaisedOnlyByTheirOperations : Prop :=
  ∀ (i : Instr) (s t : State), exec i s = .next t →
    t.errors = s.errors ∨
    (isCfe i = true ∧ t.errors = s.errors ++ [.invalidArgument] ∧
      ((∃ comp line, i = .cfRaster comp line) ∨ (∃ b, i = .cfSetMode (.rawByte b)) ∨
       (∃ b, i = .cfSetEnh (.rawByte b)) ∨ (∃ b, i = .cfSwitchMode (.rawByte b)) ∨
       (∃ b, i = .cfSelComp (.rawByte b)) ∨
       (∃ b width length recovery lowPower, i = .cfPrintInfo (some (.rawByte b)) width length recovery lowPower))) ∨
    (i = .sfParse ∧ ∃ e, e ≠ .invalidArgument ∧ t.errors = s.errors ++ [e])

/-- R203: every failed operation has a non-zero error code in its response, and every operation with a zero error code
has its valid bit set. -/
def Obligations.ZeroErrorCodeMeansValidResponse : Prop :=
  (∀ (i : Instr) (s t : State), isCfe i = true → exec i s = .next t →
    (t.cfe.valid = true ↔ t.cfe.err = 0#2) ∧ (t.cfe.valid = true ↔ t.errors = s.errors)) ∧
  (∀ s t : State, exec .sfParse s = .next t →
    (t.sfd.valid = true ↔ t.sfd.err = 0#2) ∧ (t.sfd.valid = true ↔ t.errors = s.errors))

/-- R205: errors are ordinary outcomes; the record of those raised so far in a run is only ever added to
(log entry 13). -/
def Obligations.ErrorRecordOnlyGrows : Prop :=
  ∀ s t : State, step s = .next t → ∃ more, t.errors = s.errors ++ more ∧ more.length ≤ 1

/-- R3: no unit reads state another unit writes, and none writes another's: a unit's part of the next state is a
function of its part of the state (SFD's with the free draw of R184). -/
def Obligations.UnitsShareNoState : Prop :=
  ∀ (i : Instr) (s s' t t' : State), exec i s = .next t → exec i s' = .next t' →
    (isCfe i = true → OnlyCfe s t ∧ (s.cfe = s'.cfe → t.cfe = t'.cfe)) ∧
    (isPbe i = true → OnlyPbe s t ∧ (s.pbe = s'.pbe → t.pbe = t'.pbe)) ∧
    (i = .sfParse → OnlySfd s t ∧ (s.sfd = s'.sfd → s.draws = s'.draws → t.sfd = t'.sfd))

/-! ### The host's accesses -/

/-- R26, R56: the host writes received bytes into SIB; every other byte, and everything else, stays; an index outside
SIB is a fault (that the host's writes are actions of the model is log entry 10). -/
def Obligations.HostWritesReachSibOnly : Prop :=
  ∀ (s : State) (start : Nat) (data : List Byte) (rest : List HostAction),
    s.emission = none → s.inbox = .access (.writeSib start data) :: rest →
    (start + data.length ≤ Config.sibSize →
      ∃ t, step s = .next t ∧
        (∀ k, Memory.read t.sfd.sib k =
          if start ≤ k ∧ k < start + data.length then data[k - start]? else Memory.read s.sfd.sib k) ∧
        t = { s with inbox := rest, sfd := { s.sfd with sib := t.sfd.sib } }) ∧
    (Config.sibSize < start + data.length →
      step s = .fault (.outOfSpace .sib (start + data.length - 1)))

/-- R26, R222: the host sets CUR, and LIM, each by an action that completes and changes that register alone. Every
number can be set: it is `SF.PARSE` that refuses a broken window (the model's choice, log entry 10). -/
def Obligations.HostSetsCurAndLimAlone : Prop :=
  ∀ (s : State) (value : Nat) (rest : List HostAction), s.emission = none →
    (s.inbox = .access (.setCur value) :: rest →
      step s = .next { s with inbox := rest, sfd := { s.sfd with cur := value } }) ∧
    (s.inbox = .access (.setLim value) :: rest →
      step s = .next { s with inbox := rest, sfd := { s.sfd with lim := value } })

/-- R32, R58, R55, R185: a host read of an output byte below the length of a valid response completes and changes nothing;
at or above the length, or with no valid response, the byte is unspecified and the read is a fault. A host read of the
StatusFrame registers completes and changes nothing while SF_VALID is 1, and is a fault while it is 0 (the spec's
decisions D14 and D15, log entry 7). The premise `Inv` rules out states whose output buffer does not hold its own
response. -/
def Obligations.HostReadsOnlyTheResponse : Prop :=
  ∀ (s : State) (k : Nat) (rest : List HostAction), s.Inv →
    (s.inbox = .access (.readPbo k) :: rest →
      (s.pbe.valid = true → k < s.pbe.len → step s = .next { s with inbox := rest }) ∧
      (k < 49 → s.pbe.valid = false ∨ s.pbe.len ≤ k → step s = .fault (.unspecifiedByte .pbo k)) ∧
      (49 ≤ k → step s = .fault (.outOfSpace .pbo k))) ∧
    (s.inbox = .access (.readCfo k) :: rest →
      (s.cfe.valid = true → k < s.cfe.len → step s = .next { s with inbox := rest }) ∧
      (k < 64 → s.cfe.valid = false ∨ s.cfe.len ≤ k → step s = .fault (.unspecifiedByte .cfo k)) ∧
      (64 ≤ k → step s = .fault (.outOfSpace .cfo k))) ∧
    (s.inbox = .access .readStatus :: rest →
      (s.sfd.valid = true → step s = .next { s with inbox := rest }) ∧
      (s.sfd.valid = false → step s = .fault .statusNotValid))

/-! ### Invariants -/

/-- The invariant holds right after reset. -/
def Obligations.InvariantHoldsAtReset : Prop := State.reset.Inv

/-- Every step keeps the invariant, from every state that meets it: the ranges and relations of R22, R25, R27, R28,
R58, R140 and R203, the canonical form of every buffer, and that no record
emission stands by itself (R6, log entry 2). -/
def Obligations.EveryStepKeepsTheInvariant : Prop := ∀ s t : State, s.Inv → step s = .next t → t.Inv

/-- R22: PB_VALID = 1 means that PBO holds the result of a completed `PB.ENCODE`, through every step in which no record
emission stands by itself (none does in any state a step leaves, log entry 2). -/
def Obligations.ValidOutputStaysACompletedEncoding : Prop :=
  ∀ s t : State, s.PbeResult → s.emission = none → step s = .next t → t.PbeResult
end

