-- ==== Sys2Proof/Laws/Memory.lean ====
section
/-! SUPPORT. The laws of a space's bytes: what a read gives after a write, that every operation keeps the canonical
form, and which addresses are listed after bytes are written in order. -/

namespace Sys2Proof.Machine

/-! ### Reading after writing (R61) -/

@[simp] theorem Memory.read_nil (a : Nat) : Memory.read [] a = none := rfl

theorem Memory.read_write_same (m : Memory) (a : Nat) (v : Byte) :
    Memory.read (Memory.write m a v) a = some v := by
  induction m with
  | nil => simp [Memory.write, Memory.read]
  | cons c rest ih =>
    obtain ⟨k, b⟩ := c
    simp only [Memory.write]
    split
    · simp [Memory.read]
    · split
      · simp [Memory.read]
      · next h1 h2 => simp [Memory.read, h2, ih]

theorem Memory.read_write_other (m : Memory) (a k : Nat) (v : Byte) (h : k ≠ a) :
    Memory.read (Memory.write m a v) k = Memory.read m k := by
  induction m with
  | nil => simp [Memory.write, Memory.read, h]
  | cons c rest ih =>
    obtain ⟨j, b⟩ := c
    simp only [Memory.write]
    split
    · simp [Memory.read, h]
    · split
      · next h1 h2 => subst h2; simp [Memory.read, h]
      · simp [Memory.read, ih]

/-- Everything a read after one write can give. -/
theorem Memory.read_write (m : Memory) (a k : Nat) (v : Byte) :
    Memory.read (Memory.write m a v) k = if k = a then some v else Memory.read m k := by
  split
  · next h => rw [h, Memory.read_write_same]
  · next h => exact Memory.read_write_other m a k v h

/-- Everything a read after bytes written in order can give. -/
theorem Memory.read_writeAll (bs : List Byte) (m : Memory) (a k : Nat) :
    Memory.read (Memory.writeAll m a bs) k =
      if a ≤ k ∧ k < a + bs.length then bs[k - a]? else Memory.read m k := by
  induction bs generalizing m a with
  | nil => simp [Memory.writeAll]
  | cons b bs ih =>
    simp only [Memory.writeAll, ih, Memory.read_write, List.length_cons]
    by_cases hk : k = a
    · subst hk; simp
    · by_cases h : a + 1 ≤ k ∧ k < a + 1 + bs.length
      · have h2 : a ≤ k ∧ k < a + (bs.length + 1) := by omega
        have h3 : k - a = (k - (a + 1)) + 1 := by omega
        rw [if_pos h, if_pos h2, h3, List.getElem?_cons_succ]
      · have h2 : ¬ (a ≤ k ∧ k < a + (bs.length + 1)) := by omega
        rw [if_neg h, if_neg h2, if_neg hk]

/-! ### The canonical form -/

@[simp] theorem Memory.wf_nil : Memory.wf [] := List.Pairwise.nil

theorem Memory.mem_write (m : Memory) (a : Nat) (v : Byte) (c : Host.Cell) (h : c ∈ Memory.write m a v) :
    c = (a, v) ∨ c ∈ m := by
  induction m with
  | nil => simp [Memory.write] at h; exact .inl h
  | cons d rest ih =>
    obtain ⟨k, b⟩ := d
    simp only [Memory.write] at h
    split at h
    · simpa using h
    · split at h
      · simp at h; rcases h with h | h
        · exact .inl h
        · exact .inr (by simp [h])
      · simp at h; rcases h with h | h
        · exact .inr (by simp [h])
        · rcases ih h with h | h
          · exact .inl h
          · exact .inr (by simp [h])

/-- A write keeps the canonical form. -/
theorem Memory.wf_write (m : Memory) (a : Nat) (v : Byte) (h : Memory.wf m) : Memory.wf (Memory.write m a v) := by
  induction m with
  | nil => simp [Memory.write, Memory.wf]
  | cons d rest ih =>
    obtain ⟨k, b⟩ := d
    have hk := (List.pairwise_cons.mp h).1
    have hr := (List.pairwise_cons.mp h).2
    simp only [Memory.write]
    split
    · next hlt =>
      refine List.pairwise_cons.mpr ⟨fun c hc => ?_, h⟩
      rcases List.mem_cons.mp hc with rfl | hc
      · exact hlt
      · exact Nat.lt_trans hlt (hk c hc)
    · split
      · next _ heq =>
        subst heq
        exact List.pairwise_cons.mpr ⟨fun c hc => hk c hc, hr⟩
      · refine List.pairwise_cons.mpr ⟨fun c hc => ?_, ih hr⟩
        rcases Memory.mem_write rest a v c hc with rfl | hc
        · show k < a; omega
        · exact hk c hc

/-- Bytes written in order keep the canonical form. -/
theorem Memory.wf_writeAll (bs : List Byte) (m : Memory) (a : Nat) (h : Memory.wf m) :
    Memory.wf (Memory.writeAll m a bs) := by
  induction bs generalizing m a with
  | nil => exact h
  | cons b bs ih => exact ih _ _ (Memory.wf_write m a b h)

/-- Every cell after a write of bytes is an old one or stands in the range written. -/
theorem Memory.mem_writeAll (bs : List Byte) (m : Memory) (a : Nat) (c : Host.Cell)
    (h : c ∈ Memory.writeAll m a bs) : (a ≤ c.1 ∧ c.1 < a + bs.length) ∨ c ∈ m := by
  induction bs generalizing m a with
  | nil => exact .inr h
  | cons b bs ih =>
    rcases ih _ _ h with h | h
    · exact .inl (by simp only [List.length_cons]; omega)
    · rcases Memory.mem_write m a b c h with rfl | h
      · exact .inl (by simp)
      · exact .inr h

/-! ### Which addresses are listed -/

/-- A write above every listed address lists its cell last. -/
theorem Memory.write_above (m : Memory) (a : Nat) (v : Byte) (h : ∀ c ∈ m, c.1 < a) :
    Memory.write m a v = m ++ [(a, v)] := by
  induction m with
  | nil => rfl
  | cons d rest ih =>
    obtain ⟨k, b⟩ := d
    have hk : k < a := h (k, b) (by simp)
    simp only [Memory.write, if_neg (Nat.lt_asymm hk), if_neg (Nat.ne_of_gt hk)]
    rw [ih fun c hc => h c (by simp [hc])]
    rfl

/-- A write to a listed address changes no address. -/
theorem Memory.map_fst_write_mem (m : Memory) (a : Nat) (v : Byte) (hw : Memory.wf m) (h : a ∈ m.map Prod.fst) :
    (Memory.write m a v).map Prod.fst = m.map Prod.fst := by
  induction m with
  | nil => simp at h
  | cons d rest ih =>
    obtain ⟨k, b⟩ := d
    have hk := (List.pairwise_cons.mp hw).1
    simp only [Memory.write]
    split
    · next hlt =>
      simp only [List.map_cons, List.mem_cons] at h
      rcases h with h | h
      · omega
      · obtain ⟨c, hc, rfl⟩ := List.mem_map.mp h
        have := hk c hc
        omega
    · split
      · next _ heq => simp [heq]
      · next h1 h2 =>
        simp only [List.map_cons, List.mem_cons] at h
        rcases h with h | h
        · exact absurd h h2
        · simp [ih (List.pairwise_cons.mp hw).2 h]

/-- A space that lists exactly the addresses below `n` is in canonical form. -/
theorem Memory.wf_of_listed (m : Memory) (n : Nat) (h : m.map Prod.fst = List.range n) : Memory.wf m := by
  have : (m.map Prod.fst).Pairwise (· < ·) := h ▸ List.pairwise_lt_range
  exact List.pairwise_map.mp this

/-- One byte written at the first free address. -/
theorem Memory.listed_write (m : Memory) (n : Nat) (v : Byte) (h : m.map Prod.fst = List.range n) :
    (Memory.write m n v).map Prod.fst = List.range (n + 1) := by
  have hc : ∀ c ∈ m, c.1 < n := fun c hc => by
    have : c.1 ∈ m.map Prod.fst := List.mem_map.mpr ⟨c, hc, rfl⟩
    rw [h] at this
    exact List.mem_range.mp this
  rw [Memory.write_above m n v hc, List.map_append, h, List.range_succ]
  rfl

/-- Bytes written from the first free address on (R59: a record is appended). -/
theorem Memory.listed_writeAll (bs : List Byte) (m : Memory) (n : Nat) (h : m.map Prod.fst = List.range n) :
    (Memory.writeAll m n bs).map Prod.fst = List.range (n + bs.length) := by
  induction bs generalizing m n with
  | nil => exact h
  | cons b bs ih =>
    rw [show n + (b :: bs).length = n + 1 + bs.length by simp only [List.length_cons]; omega]
    exact ih _ _ (Memory.listed_write m n b h)

/-- Bytes written from an address inside a listed range on, at least up to its end: the addresses below the end of
what is written are listed (R124: the fallback overwrites). -/
theorem Memory.listed_overwrite (bs : List Byte) (m : Memory) (n a : Nat) (h : m.map Prod.fst = List.range n)
    (ha : a ≤ n) (hn : n ≤ a + bs.length) :
    (Memory.writeAll m a bs).map Prod.fst = List.range (a + bs.length) := by
  induction bs generalizing m n a with
  | nil =>
    have : n = a := by simp only [List.length_nil] at hn; omega
    simpa [Memory.writeAll, this] using h
  | cons b bs ih =>
    have e : a + (b :: bs).length = a + 1 + bs.length := by simp only [List.length_cons]; omega
    rw [e]
    rw [e] at hn
    by_cases hlt : a < n
    · refine ih _ n _ ?_ hlt hn
      rw [Memory.map_fst_write_mem m a b (Memory.wf_of_listed m n h) (by rw [h]; exact List.mem_range.mpr hlt), h]
    · have : a = n := by omega
      subst this
      exact ih _ (a + 1) _ (Memory.listed_write m a b h) (Nat.le_refl _) (by omega)

/-! ### Ranges -/

/-- A range that is written throughout is read whole. -/
theorem Memory.readRange_of_read (m : Memory) (n a : Nat) (f : Nat → Byte)
    (h : ∀ k, k < n → Memory.read m (a + k) = some (f k)) :
    Memory.readRange m a n = .ok ((List.range n).map f) := by
  induction n generalizing a f with
  | zero => rfl
  | succ n ih =>
    have h0 := h 0 (Nat.succ_pos n)
    have ht := ih (a + 1) (fun k => f (k + 1)) fun k hk => by
      have := h (k + 1) (Nat.succ_lt_succ hk)
      rwa [show a + (k + 1) = a + 1 + k by omega] at this
    simp only [Memory.readRange, Nat.add_zero] at h0 ⊢
    rw [h0, ht]
    simp [List.range_succ_eq_map, Function.comp_def]

/-- A range read whole gives one byte for each address of it. -/
theorem Memory.readRange_ok (m : Memory) (n a : Nat) (bs : List Byte) (h : Memory.readRange m a n = .ok bs) :
    bs.length = n ∧ ∀ k, k < n → Memory.read m (a + k) = bs[k]? := by
  induction n generalizing a bs with
  | zero => simp [Memory.readRange] at h; simp [h]
  | succ n ih =>
    simp only [Memory.readRange] at h
    split at h
    · cases h
    · next b hb =>
      split at h
      · next cs hcs =>
        cases h
        obtain ⟨hl, hr⟩ := ih (a + 1) cs hcs
        refine ⟨by simp [hl], fun k hk => ?_⟩
        cases k with
        | zero => simpa using hb
        | succ k =>
          have := hr k (by omega)
          rw [show a + (k + 1) = a + 1 + k by omega, this]
          simp
      · cases h

/-- A range that is not read whole stops at an address of it that nothing has written. -/
theorem Memory.readRange_error (m : Memory) (n a k : Nat) (h : Memory.readRange m a n = .error k) :
    a ≤ k ∧ k < a + n ∧ Memory.read m k = none := by
  induction n generalizing a with
  | zero => simp [Memory.readRange] at h
  | succ n ih =>
    simp only [Memory.readRange] at h
    split at h
    · next hb => cases h; exact ⟨by omega, by omega, hb⟩
    · split at h
      · cases h
      · next e he => cases h; obtain ⟨h1, h2, h3⟩ := ih (a + 1) he; exact ⟨by omega, by omega, h3⟩

/-- The bytes below the length of an output buffer, where the buffer's bytes are known. -/
theorem outputBytes_of_read (m : Memory) (bs : List Byte)
    (h : ∀ k, k < bs.length → Memory.read m k = bs[k]?) : outputBytes m bs.length = some bs := by
  have := Memory.readRange_of_read m bs.length 0 (fun k => bs.getD k 0#8) fun k hk => by
    rw [Nat.zero_add, h k hk]
    simp [List.getD, List.getElem?_eq_getElem hk]
  simp only [outputBytes, this, Option.some.injEq]
  apply List.ext_getElem?
  intro k
  by_cases hk : k < bs.length
  · simp [hk]
  · simp [hk]

end Sys2Proof.Machine
end

