-- ==== Sys2Proof/Laws/Operands.lean ====
section
/-! SUPPORT. The laws of the operand forms: a member's wire value reads back as the member, a raw byte that reads as
a member is its wire value, the halves of a 16-bit number, the bounds of the control bytes and of the clamp. -/

namespace Sys2Proof

@[simp] theorem CommandMode.ofWire_wire (m : CommandMode) : CommandMode.ofWire m.wire = some m := by
  cases m <;> rfl

@[simp] theorem CompressionMode.ofWire_wire (m : CompressionMode) : CompressionMode.ofWire m.wire = some m := by
  cases m <;> rfl

@[simp] theorem PaperKind.ofWire_wire (k : PaperKind) : PaperKind.ofWire k.wire = some k := by
  cases k <;> rfl

@[simp] theorem ModeSet.ofWire_wire (m : ModeSet) : ModeSet.ofWire m.wire = some m := by
  obtain ⟨a, b⟩ := m
  cases a <;> cases b <;> rfl

@[simp] theorem EnhancedSet.ofWire_wire (e : EnhancedSet) : EnhancedSet.ofWire e.wire = some e := by
  obtain ⟨a, b, c, d, e⟩ := e
  cases a <;> cases b <;> cases c <;> cases d <;> cases e <;> rfl

theorem CommandMode.wire_of_ofWire {b : Byte} {m : CommandMode} (h : CommandMode.ofWire b = some m) :
    m.wire = b := by
  revert h; revert m b; decide +revert

theorem CompressionMode.wire_of_ofWire {b : Byte} {m : CompressionMode} (h : CompressionMode.ofWire b = some m) :
    m.wire = b := by
  simp only [CompressionMode.ofWire] at h
  split at h
  · cases h; simp_all [CompressionMode.wire]
  · split at h
    · cases h; simp_all [CompressionMode.wire]
    · cases h

theorem PaperKind.wire_of_ofWire {b : Byte} {k : PaperKind} (h : PaperKind.ofWire b = some k) : k.wire = b := by
  simp only [PaperKind.ofWire] at h
  repeat' split at h
  all_goals first
    | (cases h; simp_all [PaperKind.wire])
    | cases h

/-- Every byte that reads as a set of Mode flags is that set's byte. -/
theorem ModeSet.wire_of_ofWire {b : Byte} {m : ModeSet} (h : ModeSet.ofWire b = some m) : m.wire = b := by
  have all : ∀ b : Byte, ∀ m ∈ ModeSet.ofWire b, m.wire = b := by decide
  exact all b m h

/-- Every byte that reads as a set of EnhancedMode flags is that set's byte. -/
theorem EnhancedSet.wire_of_ofWire {b : Byte} {e : EnhancedSet} (h : EnhancedSet.ofWire b = some e) :
    e.wire = b := by
  have all : ∀ b : Byte, ∀ e ∈ EnhancedSet.ofWire b, e.wire = b := by decide
  exact all b e h

theorem Half.toNat_ofBytes (h l : Byte) : (Half.ofBytes h l).toNat = h.toNat * 256 + l.toNat := by
  have e := BitVec.toNat_append h l
  rw [Half.ofBytes, e, Nat.shiftLeft_eq, Nat.mul_comm, ← Nat.two_pow_add_eq_or_of_lt l.isLt]

@[simp] theorem Half.low_ofBytes (h l : Byte) : Half.low (Half.ofBytes h l) = l := by
  apply BitVec.eq_of_toNat_eq
  have := l.isLt
  simp [Half.low, Half.toNat_ofBytes]
  omega

@[simp] theorem Half.high_ofBytes (h l : Byte) : Half.high (Half.ofBytes h l) = h := by
  apply BitVec.eq_of_toNat_eq
  have := l.isLt
  have := h.isLt
  simp [Half.high, Half.toNat_ofBytes, Nat.shiftRight_eq_div_pow]
  omega

@[simp] theorem Half.ofBytes_high_low (x : Half) : Half.ofBytes (Half.high x) (Half.low x) = x := by
  apply BitVec.eq_of_toNat_eq
  have := x.isLt
  rw [Half.toNat_ofBytes]
  simp [Half.high, Half.low, Nat.shiftRight_eq_div_pow]
  omega

/-- A length below 65536 is what its two bytes at the port say. -/
theorem toNat_stream_length (n : Nat) (h : n < 65536) :
    (Half.ofBytes (Half.high (BitVec.ofNat 16 n)) (Half.low (BitVec.ofNat 16 n))).toNat = n := by
  rw [Half.ofBytes_high_low]
  simp
  omega

/-- The clamp of `CF.VOID` (R141). -/
theorem voidLength_le (count : BitVec 32) : voidLength count ≤ 64 := by
  simp only [voidLength, Config.cfOutMax]
  omega

/-- A run's control byte as a number (R122). -/
theorem toNat_ctrlRun (n : Nat) : (ctrlRun n).toNat = (257 - n) % 256 := by
  simp [ctrlRun]

/-- A literal's control byte as a number (R122). -/
theorem toNat_ctrlLit (n : Nat) (h : n ≤ 256) : (ctrlLit n).toNat = n - 1 := by
  simp [ctrlLit]
  omega

/-! ### The count of `CF.VOID` at the port -/

/-- Two numbers appended as a number. -/
theorem toNat_append_byte {w : Nat} (x : BitVec w) (b : Byte) : (x ++ b).toNat = x.toNat * 256 + b.toNat := by
  rw [BitVec.toNat_append, Nat.shiftLeft_eq, Nat.mul_comm, ← Nat.two_pow_add_eq_or_of_lt b.isLt]

theorem toNat_count (b0 b1 b2 b3 : Byte) :
    (b3 ++ b2 ++ b1 ++ b0).toNat = ((b3.toNat * 256 + b2.toNat) * 256 + b1.toNat) * 256 + b0.toNat := by
  rw [toNat_append_byte, toNat_append_byte, toNat_append_byte]

/-- The four bytes of a count read back as the count. -/
theorem readCount_writeCount (c : BitVec 32) : readCount (writeCount c) = .ok (.cfVoid c) := by
  simp only [writeCount, readCount]
  congr 2
  apply BitVec.eq_of_toNat_eq
  have := c.isLt
  refine (toNat_count _ _ _ _).trans ?_
  simp [Nat.shiftRight_eq_div_pow]
  omega

/-- The bytes of a count of four bytes are those bytes. -/
theorem writeCount_append (b0 b1 b2 b3 : Byte) : writeCount (b3 ++ b2 ++ b1 ++ b0) = [b0, b1, b2, b3] := by
  have hn := toNat_count b0 b1 b2 b3
  generalize (b3 ++ b2 ++ b1 ++ b0 : BitVec 32) = c at hn ⊢
  have h0 := b0.isLt
  have h1 := b1.isLt
  have h2 := b2.isLt
  have h3 := b3.isLt
  have e (s : Nat) (b : Byte) (h : c.toNat / 2 ^ s % 256 = b.toNat) : c.extractLsb' s 8 = b := by
    apply BitVec.eq_of_toNat_eq
    simpa [Nat.shiftRight_eq_div_pow] using h
  simp only [writeCount]
  rw [e 0 b0, e 8 b1, e 16 b2, e 24 b3] <;> omega

end Sys2Proof
end

