-- ==== Sys2Proof/Laws/State.lean ====
section
/-! SUPPORT. One lemma for each part of the state under each shared update, so that no later proof unfolds a record
update: what an update leaves alone, and the registers it sets to a value of its own. -/

namespace Sys2Proof.Machine

/-! ### `Cfe.put`, `Cfe.putAll` -/

@[simp] theorem Cfe.entry_cfi (c : Cfe) : c.entry.cfi = c.cfi := rfl
@[simp] theorem Cfe.entry_cfo (c : Cfe) : c.entry.cfo = [] := rfl
@[simp] theorem Cfe.entry_len (c : Cfe) : c.entry.len = 0 := rfl
@[simp] theorem Cfe.entry_err (c : Cfe) : c.entry.err = 0#2 := rfl
@[simp] theorem Cfe.entry_valid (c : Cfe) : c.entry.valid = false := rfl

@[simp] theorem Cfe.put_cfi (c : Cfe) (v : Byte) : (c.put v).cfi = c.cfi := rfl
@[simp] theorem Cfe.put_cfo (c : Cfe) (v : Byte) : (c.put v).cfo = Memory.write c.cfo c.len v := rfl
@[simp] theorem Cfe.put_len (c : Cfe) (v : Byte) : (c.put v).len = c.len + 1 := rfl
@[simp] theorem Cfe.put_err (c : Cfe) (v : Byte) : (c.put v).err = c.err := rfl
@[simp] theorem Cfe.put_valid (c : Cfe) (v : Byte) : (c.put v).valid = c.valid := rfl

@[simp] theorem Cfe.putAll_nil (c : Cfe) : c.putAll [] = c := rfl
@[simp] theorem Cfe.putAll_cons (c : Cfe) (b : Byte) (bs : List Byte) : c.putAll (b :: bs) = (c.put b).putAll bs := rfl

/-- Everything putting a frame does. -/
theorem Cfe.putAll_eq (c : Cfe) (frame : List Byte) :
    c.putAll frame = { c with cfo := Memory.writeAll c.cfo c.len frame, len := c.len + frame.length } := by
  induction frame generalizing c with
  | nil => rfl
  | cons b bs ih =>
    rw [Cfe.putAll_cons, ih]
    simp only [Cfe.put, Memory.writeAll, List.length_cons, Nat.add_assoc, Nat.add_comm 1]

/-! ### `answerFrame` -/

@[simp] theorem State.answerFrame_pbe (s : State) (f : List Byte) : (s.answerFrame f).pbe = s.pbe := rfl
@[simp] theorem State.answerFrame_sfd (s : State) (f : List Byte) : (s.answerFrame f).sfd = s.sfd := rfl
@[simp] theorem State.answerFrame_inbox (s : State) (f : List Byte) : (s.answerFrame f).inbox = s.inbox := rfl
@[simp] theorem State.answerFrame_emission (s : State) (f : List Byte) : (s.answerFrame f).emission = s.emission := rfl
@[simp] theorem State.answerFrame_errors (s : State) (f : List Byte) : (s.answerFrame f).errors = s.errors := rfl
@[simp] theorem State.answerFrame_draws (s : State) (f : List Byte) : (s.answerFrame f).draws = s.draws := rfl
@[simp] theorem State.answerFrame_valid (s : State) (f : List Byte) : (s.answerFrame f).cfe.valid = true := rfl

@[simp] theorem State.answerFrame_cfo (s : State) (f : List Byte) :
    (s.answerFrame f).cfe.cfo = Memory.writeAll [] 0 f := by simp [State.answerFrame, Cfe.putAll_eq]

@[simp] theorem State.answerFrame_len (s : State) (f : List Byte) : (s.answerFrame f).cfe.len = f.length := by
  simp [State.answerFrame, Cfe.putAll_eq]

@[simp] theorem State.answerFrame_err (s : State) (f : List Byte) : (s.answerFrame f).cfe.err = 0#2 := by
  simp [State.answerFrame, Cfe.putAll_eq]

@[simp] theorem State.answerFrame_cfi (s : State) (f : List Byte) : (s.answerFrame f).cfe.cfi = s.cfe.cfi := by
  simp [State.answerFrame, Cfe.putAll_eq]

/-! ### `deliverCfi` -/

@[simp] theorem State.deliverCfi_pbe (s : State) (l : List Byte) : (s.deliverCfi l).pbe = s.pbe := rfl
@[simp] theorem State.deliverCfi_sfd (s : State) (l : List Byte) : (s.deliverCfi l).sfd = s.sfd := rfl
@[simp] theorem State.deliverCfi_inbox (s : State) (l : List Byte) : (s.deliverCfi l).inbox = s.inbox := rfl
@[simp] theorem State.deliverCfi_emission (s : State) (l : List Byte) : (s.deliverCfi l).emission = s.emission := rfl
@[simp] theorem State.deliverCfi_errors (s : State) (l : List Byte) : (s.deliverCfi l).errors = s.errors := rfl
@[simp] theorem State.deliverCfi_draws (s : State) (l : List Byte) : (s.deliverCfi l).draws = s.draws := rfl
@[simp] theorem State.deliverCfi_cfi (s : State) (l : List Byte) : (s.deliverCfi l).cfe.cfi = l := rfl

/-! ### `answerInvalid` -/

@[simp] theorem State.answerInvalid_pbe (s : State) : s.answerInvalid.pbe = s.pbe := rfl
@[simp] theorem State.answerInvalid_sfd (s : State) : s.answerInvalid.sfd = s.sfd := rfl
@[simp] theorem State.answerInvalid_inbox (s : State) : s.answerInvalid.inbox = s.inbox := rfl
@[simp] theorem State.answerInvalid_emission (s : State) : s.answerInvalid.emission = s.emission := rfl
@[simp] theorem State.answerInvalid_draws (s : State) : s.answerInvalid.draws = s.draws := rfl
@[simp] theorem State.answerInvalid_errors (s : State) :
    s.answerInvalid.errors = s.errors ++ [.invalidArgument] := rfl
@[simp] theorem State.answerInvalid_cfi (s : State) : s.answerInvalid.cfe.cfi = s.cfe.cfi := rfl
@[simp] theorem State.answerInvalid_cfo (s : State) : s.answerInvalid.cfe.cfo = [] := rfl
@[simp] theorem State.answerInvalid_len (s : State) : s.answerInvalid.cfe.len = 0 := rfl
@[simp] theorem State.answerInvalid_err (s : State) : s.answerInvalid.cfe.err = 1#2 := rfl
@[simp] theorem State.answerInvalid_valid (s : State) : s.answerInvalid.cfe.valid = false := rfl

/-! ### `sfdEntry` -/

@[simp] theorem State.sfdEntry_pbe (s : State) : s.sfdEntry.pbe = s.pbe := rfl
@[simp] theorem State.sfdEntry_cfe (s : State) : s.sfdEntry.cfe = s.cfe := rfl
@[simp] theorem State.sfdEntry_inbox (s : State) : s.sfdEntry.inbox = s.inbox := rfl
@[simp] theorem State.sfdEntry_emission (s : State) : s.sfdEntry.emission = s.emission := rfl
@[simp] theorem State.sfdEntry_errors (s : State) : s.sfdEntry.errors = s.errors := rfl
@[simp] theorem State.sfdEntry_draws (s : State) : s.sfdEntry.draws = s.draws := rfl
@[simp] theorem State.sfdEntry_sib (s : State) : s.sfdEntry.sfd.sib = s.sfd.sib := rfl
@[simp] theorem State.sfdEntry_cur (s : State) : s.sfdEntry.sfd.cur = s.sfd.cur := rfl
@[simp] theorem State.sfdEntry_lim (s : State) : s.sfdEntry.sfd.lim = s.sfd.lim := rfl
@[simp] theorem State.sfdEntry_frame (s : State) : s.sfdEntry.sfd.frame = s.sfd.frame := rfl
@[simp] theorem State.sfdEntry_valid (s : State) : s.sfdEntry.sfd.valid = false := rfl
@[simp] theorem State.sfdEntry_err (s : State) : s.sfdEntry.sfd.err = 0#2 := rfl
@[simp] theorem State.sfdEntry_ekind (s : State) : s.sfdEntry.sfd.ekind = 0#2 := rfl
@[simp] theorem State.sfdEntry_eoff (s : State) : s.sfdEntry.sfd.eoff = 0#3 := rfl
@[simp] theorem State.sfdEntry_eexp (s : State) : s.sfdEntry.sfd.eexp = 0#8 := rfl
@[simp] theorem State.sfdEntry_eact (s : State) : s.sfdEntry.sfd.eact = 0#8 := rfl

/-! ### `acceptFrame` -/

@[simp] theorem State.acceptFrame_pbe (s : State) (f : List Byte) : (s.acceptFrame f).pbe = s.pbe := rfl
@[simp] theorem State.acceptFrame_cfe (s : State) (f : List Byte) : (s.acceptFrame f).cfe = s.cfe := rfl
@[simp] theorem State.acceptFrame_inbox (s : State) (f : List Byte) : (s.acceptFrame f).inbox = s.inbox := rfl
@[simp] theorem State.acceptFrame_emission (s : State) (f : List Byte) : (s.acceptFrame f).emission = s.emission := rfl
@[simp] theorem State.acceptFrame_errors (s : State) (f : List Byte) : (s.acceptFrame f).errors = s.errors := rfl
@[simp] theorem State.acceptFrame_draws (s : State) (f : List Byte) : (s.acceptFrame f).draws = s.draws := rfl
@[simp] theorem State.acceptFrame_sib (s : State) (f : List Byte) : (s.acceptFrame f).sfd.sib = s.sfd.sib := rfl
@[simp] theorem State.acceptFrame_lim (s : State) (f : List Byte) : (s.acceptFrame f).sfd.lim = s.sfd.lim := rfl
@[simp] theorem State.acceptFrame_cur (s : State) (f : List Byte) :
    (s.acceptFrame f).sfd.cur = s.sfd.cur + 32 := rfl
@[simp] theorem State.acceptFrame_frame (s : State) (f : List Byte) : (s.acceptFrame f).sfd.frame = extract f := rfl
@[simp] theorem State.acceptFrame_valid (s : State) (f : List Byte) : (s.acceptFrame f).sfd.valid = true := rfl
@[simp] theorem State.acceptFrame_err (s : State) (f : List Byte) : (s.acceptFrame f).sfd.err = s.sfd.err := rfl
@[simp] theorem State.acceptFrame_ekind (s : State) (f : List Byte) :
    (s.acceptFrame f).sfd.ekind = s.sfd.ekind := rfl
@[simp] theorem State.acceptFrame_eoff (s : State) (f : List Byte) : (s.acceptFrame f).sfd.eoff = s.sfd.eoff := rfl
@[simp] theorem State.acceptFrame_eexp (s : State) (f : List Byte) : (s.acceptFrame f).sfd.eexp = s.sfd.eexp := rfl
@[simp] theorem State.acceptFrame_eact (s : State) (f : List Byte) : (s.acceptFrame f).sfd.eact = s.sfd.eact := rfl

/-! ### `drawCursor` -/

@[simp] theorem State.drawCursor_pbe (s : State) : s.drawCursor.pbe = s.pbe := rfl
@[simp] theorem State.drawCursor_cfe (s : State) : s.drawCursor.cfe = s.cfe := rfl
@[simp] theorem State.drawCursor_inbox (s : State) : s.drawCursor.inbox = s.inbox := rfl
@[simp] theorem State.drawCursor_emission (s : State) : s.drawCursor.emission = s.emission := rfl
@[simp] theorem State.drawCursor_errors (s : State) : s.drawCursor.errors = s.errors := rfl
@[simp] theorem State.drawCursor_draws (s : State) : s.drawCursor.draws = s.draws + 1 := rfl
@[simp] theorem State.drawCursor_sib (s : State) : s.drawCursor.sfd.sib = s.sfd.sib := rfl
@[simp] theorem State.drawCursor_lim (s : State) : s.drawCursor.sfd.lim = s.sfd.lim := rfl
@[simp] theorem State.drawCursor_frame (s : State) : s.drawCursor.sfd.frame = s.sfd.frame := rfl
@[simp] theorem State.drawCursor_valid (s : State) : s.drawCursor.sfd.valid = s.sfd.valid := rfl
@[simp] theorem State.drawCursor_err (s : State) : s.drawCursor.sfd.err = s.sfd.err := rfl
@[simp] theorem State.drawCursor_ekind (s : State) : s.drawCursor.sfd.ekind = s.sfd.ekind := rfl
@[simp] theorem State.drawCursor_eoff (s : State) : s.drawCursor.sfd.eoff = s.sfd.eoff := rfl
@[simp] theorem State.drawCursor_eexp (s : State) : s.drawCursor.sfd.eexp = s.sfd.eexp := rfl
@[simp] theorem State.drawCursor_eact (s : State) : s.drawCursor.sfd.eact = s.sfd.eact := rfl
@[simp] theorem State.drawCursor_cur (s : State) :
    s.drawCursor.sfd.cur = failCursor s.draws s.sfd.cur s.sfd.lim := rfl

/-! ### `Pbe.entry`, `Pbe.append`, `Pbe.fallback` -/

@[simp] theorem Pbe.entry_pbi (p : Pbe) : p.entry.pbi = p.pbi := rfl
@[simp] theorem Pbe.entry_line (p : Pbe) : p.entry.line = p.line := rfl
@[simp] theorem Pbe.entry_pbo (p : Pbe) : p.entry.pbo = [] := rfl
@[simp] theorem Pbe.entry_len (p : Pbe) : p.entry.len = 0 := rfl
@[simp] theorem Pbe.entry_fb (p : Pbe) : p.entry.fb = false := rfl
@[simp] theorem Pbe.entry_valid (p : Pbe) : p.entry.valid = false := rfl

@[simp] theorem Pbe.append_pbi (p : Pbe) (r : List Byte) : (p.append r).pbi = p.pbi := rfl
@[simp] theorem Pbe.append_line (p : Pbe) (r : List Byte) : (p.append r).line = p.line := rfl
@[simp] theorem Pbe.append_s (p : Pbe) (r : List Byte) : (p.append r).s = p.s := rfl
@[simp] theorem Pbe.append_i (p : Pbe) (r : List Byte) : (p.append r).i = p.i := rfl
@[simp] theorem Pbe.append_mode (p : Pbe) (r : List Byte) : (p.append r).mode = p.mode := rfl
@[simp] theorem Pbe.append_fb (p : Pbe) (r : List Byte) : (p.append r).fb = p.fb := rfl
@[simp] theorem Pbe.append_valid (p : Pbe) (r : List Byte) : (p.append r).valid = p.valid := rfl
@[simp] theorem Pbe.append_len (p : Pbe) (r : List Byte) : (p.append r).len = p.len + r.length := rfl
@[simp] theorem Pbe.append_pbo (p : Pbe) (r : List Byte) : (p.append r).pbo = Memory.writeAll p.pbo p.len r := rfl

@[simp] theorem Pbe.fallback_pbi (p : Pbe) : p.fallback.pbi = p.pbi := rfl
@[simp] theorem Pbe.fallback_line (p : Pbe) : p.fallback.line = p.line := rfl
@[simp] theorem Pbe.fallback_s (p : Pbe) : p.fallback.s = p.s := rfl
@[simp] theorem Pbe.fallback_i (p : Pbe) : p.fallback.i = p.i := rfl
@[simp] theorem Pbe.fallback_mode (p : Pbe) : p.fallback.mode = p.mode := rfl
@[simp] theorem Pbe.fallback_fb (p : Pbe) : p.fallback.fb = true := rfl
@[simp] theorem Pbe.fallback_valid (p : Pbe) : p.fallback.valid = p.valid := rfl
@[simp] theorem Pbe.fallback_len (p : Pbe) : p.fallback.len = 49 := rfl
@[simp] theorem Pbe.fallback_pbo (p : Pbe) :
    p.fallback.pbo = Memory.writeAll p.pbo 0 (0x2F#8 :: p.line.toList) := rfl

/-! ### `Pbe.emit`: what every emission leaves alone -/

@[simp] theorem Pbe.emit_pbi (p : Pbe) (r : List Byte) : (p.emit r).pbi = p.pbi := by unfold Pbe.emit; split <;> rfl
@[simp] theorem Pbe.emit_line (p : Pbe) (r : List Byte) : (p.emit r).line = p.line := by
  unfold Pbe.emit; split <;> rfl
@[simp] theorem Pbe.emit_s (p : Pbe) (r : List Byte) : (p.emit r).s = p.s := by unfold Pbe.emit; split <;> rfl
@[simp] theorem Pbe.emit_i (p : Pbe) (r : List Byte) : (p.emit r).i = p.i := by unfold Pbe.emit; split <;> rfl
@[simp] theorem Pbe.emit_mode (p : Pbe) (r : List Byte) : (p.emit r).mode = p.mode := by
  unfold Pbe.emit; split <;> rfl
@[simp] theorem Pbe.emit_valid (p : Pbe) (r : List Byte) : (p.emit r).valid = p.valid := by
  unfold Pbe.emit; split <;> rfl

end Sys2Proof.Machine
end

