-- ==== Sys2Proof/Laws/Answers.lean ====
section
/-! SUPPORT. One lemma for each shared operation that says once everything it can do: the two answers of a CFE
operation, one emission of PBE under the guard, the failures and the success of SFD, and the cases of `SF.PARSE`. -/

namespace Sys2Proof.Machine

/-! ### CFE (R140, R199) -/

/-- A space written with a frame from index 0 on, over no defined byte, reads as the frame. -/
theorem read_written_frame (frame : List Byte) (k : Nat) :
    Memory.read (Memory.writeAll [] 0 frame) k = frame[k]? := by
  rw [Memory.read_writeAll]
  by_cases h : k < frame.length
  · simp [h]
  · simp [h]

/-- Everything `answerFrame` does, CFI being whatever it was. -/
theorem State.answerFrame_spec (s : State) (frame : List Byte) :
    FrameAnswer s (s.answerFrame frame) frame s.cfe.cfi where
  valid := by simp
  err := by simp
  len := by simp
  bytes k := by rw [State.answerFrame_cfo]; exact read_written_frame frame k
  response := by
    simp only [State.cfResponse, State.answerFrame_valid, if_true, State.answerFrame_cfo, State.answerFrame_len]
    exact outputBytes_of_read _ _ fun k _ => read_written_frame frame k
  cfi := by simp
  errors := by simp
  others := ⟨by simp, by simp, by simp, by simp, by simp⟩

/-- Everything `answerInvalid` does. -/
theorem State.answerInvalid_spec (s : State) : InvalidAnswer s s.answerInvalid s.cfe.cfi where
  valid := by simp
  err := by simp
  len := by simp
  response := by simp [State.cfResponse]
  cfi := by simp
  errors := by simp
  others := ⟨by simp, by simp, by simp, by simp, by simp⟩

/-- The two ways an operation with a closed operand ends (R155). -/
theorem State.answerOperand_some {α : Type} (s : State) (v : α) (frame : α → List Byte) :
    s.answerOperand (some v) frame = s.answerFrame (frame v) := rfl

theorem State.answerOperand_none {α : Type} (s : State) (frame : α → List Byte) :
    s.answerOperand none frame = s.answerInvalid := rfl

/-- A CFE operation that runs `answerFrame` delivers that frame. -/
theorem delivers_of_answerFrame (i : Instr) (s : State) (frame : List Byte)
    (h : exec i s = .next (s.answerFrame frame)) : Delivers i s frame :=
  ⟨_, h, s.answerFrame_spec frame⟩

/-- A CFE operation that runs `answerInvalid` rejects its request. -/
theorem rejects_of_answerInvalid (i : Instr) (s : State) (h : exec i s = .next s.answerInvalid) : Rejects i s :=
  ⟨_, h, s.answerInvalid_spec⟩

/-! ### PBE (R120, R121, R123, R124) -/

/-- The two ways an emission ends (R123). -/
theorem Pbe.emit_cases (p : Pbe) (r : List Byte) :
    (p.len + r.length ≤ 49 ∧ p.emit r = p.append r) ∨ (49 < p.len + r.length ∧ p.emit r = p.fallback) := by
  by_cases h : p.len + r.length ≤ 49
  · exact .inl ⟨h, if_neg (Nat.not_lt.mpr h)⟩
  · exact .inr ⟨Nat.lt_of_not_le h, if_pos (Nat.lt_of_not_le h)⟩

/-- A run emission inside the span R120 gives it. -/
theorem execPbRecRun_in_span (n : Nat) (v : Byte) (s : State) (h1 : 1 ≤ n) (h2 : n ≤ 48) :
    execPbRecRun n v s = .next { s with pbe := s.pbe.emit [ctrlRun n, v] } := if_pos ⟨h1, h2⟩

/-- A literal emission inside the span R121 gives it. -/
theorem execPbRecLit_in_span (n a : Nat) (s : State) (h1 : 1 ≤ n) (h2 : n ≤ 48) (h3 : a + n ≤ 48) :
    execPbRecLit n a s = .next { s with pbe := s.pbe.emit (ctrlLit n :: lineSlice s.pbe.line a n) } :=
  if_pos ⟨h1, h2, h3⟩

/-- A byte of PBO after a record was appended. -/
theorem Pbe.read_append (p : Pbe) (r : List Byte) (k : Nat) :
    Memory.read (p.append r).pbo k =
      if p.len ≤ k ∧ k < p.len + r.length then r[k - p.len]? else Memory.read p.pbo k := by
  rw [Pbe.append_pbo, Memory.read_writeAll]

/-- A byte of PBO after the fallback. -/
theorem Pbe.read_fallback (p : Pbe) (k : Nat) :
    Memory.read p.fallback.pbo k = if k < 49 then (0x2F#8 :: p.line.toList)[k]? else Memory.read p.pbo k := by
  rw [Pbe.fallback_pbo, Memory.read_writeAll]
  simp

/-- PBO goes on listing exactly the bytes below PB_LEN, and PB_LEN stays at most 49, through every emission. -/
theorem Pbe.emit_listed (p : Pbe) (r : List Byte) (h : p.pbo.map Prod.fst = List.range p.len) (hl : p.len ≤ 49) :
    (p.emit r).pbo.map Prod.fst = List.range (p.emit r).len ∧ (p.emit r).len ≤ 49 := by
  rcases p.emit_cases r with ⟨hle, he⟩ | ⟨_, he⟩ <;> rw [he]
  · exact ⟨Memory.listed_writeAll r p.pbo p.len h, hle⟩
  · refine ⟨?_, Nat.le_refl _⟩
    rw [Pbe.fallback_pbo, Pbe.fallback_len]
    have := Memory.listed_overwrite (0x2F#8 :: p.line.toList) p.pbo p.len 0 h (Nat.zero_le _) (by simpa using hl)
    simpa using this

@[simp] theorem lineSlice_length (line : Vector Byte 48) (a n : Nat) (h : a + n ≤ 48) :
    (lineSlice line a n).length = n := by
  simp [lineSlice]
  omega

theorem lineSlice_getElem? (line : Vector Byte 48) (a n k : Nat) (h : a + n ≤ 48) (hk : k < n) :
    (lineSlice line a n)[k]? = some (lineByte line (a + k)) := by
  have hb : a + k < line.toList.length := by simp; omega
  simp only [lineSlice, lineByte, List.getElem?_take_of_lt hk, List.getElem?_drop, List.getD]
  rw [List.getElem?_eq_getElem hb]
  rfl

/-- A byte of the normalised line (R111). -/
theorem lineByte_normalise (input : List Byte) (k : Nat) (h : k < 48) :
    lineByte (normalise input) k = input.getD k 0#8 := by
  have hb : k < (normalise input).toList.length := by simpa using h
  simp only [lineByte, List.getD]
  rw [List.getElem?_eq_getElem hb]
  simp [normalise, List.getD]

/-! ### SFD (R172 to R184) -/

/-- The free cursor stands in the range R184 states. -/
theorem failCursor_range (draw cur lim : Nat) (h : cur ≤ lim) :
    cur ≤ failCursor draw cur lim ∧ failCursor draw cur lim ≤ min (cur + 32) lim := by
  have hm := Nat.mod_lt (Config.sfdCurOnFail draw) (Nat.succ_pos (min (cur + 32) lim - cur))
  unfold failCursor
  simp only [Config.sfBytes]
  generalize Config.sfdCurOnFail draw % (min (cur + 32) lim - cur + 1) = x at hm ⊢
  omega

theorem firstMismatch_isFormat (o : Nat) (checks : List (FormatKind × Byte)) (f : List Byte) (e : CodecError)
    (h : firstMismatch o checks f = some e) :
    ∃ kind j expected actual, e = .formatError kind j expected actual ∧ o ≤ j ∧ j < o + checks.length ∧
      checks[j - o]? = some (kind, expected) ∧ f[j - o]? = some actual ∧ actual ≠ expected ∧
      ∀ k, k < j - o → (checks[k]?).map Prod.snd = f[k]? := by
  induction checks generalizing o f with
  | nil => cases f <;> simp [firstMismatch] at h
  | cons c checks ih =>
    obtain ⟨kind, expected⟩ := c
    cases f with
    | nil => simp [firstMismatch] at h
    | cons actual f =>
      simp only [firstMismatch] at h
      split at h
      · next heq =>
        obtain ⟨kd, j, x, a, rfl, h1, h2, h3, h4, h5, h6⟩ := ih _ _ h
        have hj : j - o = (j - (o + 1)) + 1 := by omega
        refine ⟨kd, j, x, a, rfl, by omega, by simp only [List.length_cons]; omega, ?_, ?_, h5, ?_⟩
        · rw [hj, List.getElem?_cons_succ, h3]
        · rw [hj, List.getElem?_cons_succ, h4]
        · intro k hk
          cases k with
          | zero => simp [heq]
          | succ k => simpa using h6 k (by omega)
      · next hne =>
        cases h
        exact ⟨kind, o, expected, actual, rfl, Nat.le_refl _, by simp, by simp, by simp, hne, by omega⟩

theorem firstMismatch_none (o : Nat) (checks : List (FormatKind × Byte)) (f : List Byte)
    (hl : checks.length ≤ f.length) (h : firstMismatch o checks f = none) :
    ∀ k, k < checks.length → (checks[k]?).map Prod.snd = f[k]? := by
  induction checks generalizing o f with
  | nil => intro k hk; simp at hk
  | cons c checks ih =>
    obtain ⟨kind, expected⟩ := c
    cases f with
    | nil => simp at hl
    | cons actual f =>
      simp only [firstMismatch] at h
      split at h
      · next heq =>
        intro k hk
        cases k with
        | zero => simp [heq]
        | succ k => simpa using ih _ _ (by simpa using hl) h k (by simpa using hk)
      · cases h

/-- Everything a failed parse does: the state after `rejectFrame`, for an error of SFD. -/
theorem State.rejectFrame_failed (s : State) (e : CodecError) (h : s.sfd.cur ≤ s.sfd.lim)
    (he : e ≠ .invalidArgument) : FailedParse s (s.sfdEntry.rejectFrame e) e := by
  have hr := failCursor_range s.draws s.sfd.cur s.sfd.lim h
  cases e with
  | invalidArgument => exact absurd rfl he
  | formatError kind j x a => exact ⟨rfl, rfl, hr.1, hr.2, rfl, ⟨rfl, rfl, rfl, rfl, rfl, rfl⟩⟩
  | bufferUnderflow => exact ⟨rfl, rfl, hr.1, hr.2, rfl, ⟨rfl, rfl, rfl, rfl, rfl, rfl⟩⟩

/-- The ways `SF.PARSE` ends (R172 to R176, U10, U16): once for all, so that no proof unfolds it again. -/
theorem execSfParse_cases (s : State) :
    ((s.sfd.lim < s.sfd.cur ∨ Config.sibSize < s.sfd.lim) ∧
        execSfParse s = .refused (.hostSetup s.sfd.cur s.sfd.lim)) ∨
    (s.WindowReady ∧ s.sfd.lim - s.sfd.cur < 32 ∧
        execSfParse s = .next (s.sfdEntry.rejectFrame .bufferUnderflow)) ∨
    (s.WindowReady ∧ s.sfd.cur + 32 ≤ s.sfd.lim ∧
        ((∃ k, Memory.readRange s.sfd.sib s.sfd.cur 32 = .error k ∧
            execSfParse s = .fault (.unspecifiedByte .sib k)) ∨
         (∃ f, Memory.readRange s.sfd.sib s.sfd.cur 32 = .ok f ∧
            ((∃ e, firstMismatch 0 headerChecks f = some e ∧ execSfParse s = .next (s.sfdEntry.rejectFrame e)) ∨
             (firstMismatch 0 headerChecks f = none ∧ execSfParse s = .next (s.sfdEntry.acceptFrame f)))))) := by
  by_cases hw : s.sfd.lim < s.sfd.cur ∨ Config.sibSize < s.sfd.lim
  · exact .inl ⟨hw, by simp [execSfParse, hw]⟩
  · have hr : s.WindowReady := ⟨by omega, by omega⟩
    by_cases hu : s.sfd.lim - s.sfd.cur < 32
    · exact .inr (.inl ⟨hr, hu, by simp [execSfParse, hw, Config.sfBytes, hu]⟩)
    · refine .inr (.inr ⟨hr, by omega, ?_⟩)
      cases hf : Memory.readRange s.sfd.sib s.sfd.cur 32 with
      | error k => exact .inl ⟨k, rfl, by simp [execSfParse, hw, Config.sfBytes, hu, hf]⟩
      | ok f =>
        refine .inr ⟨f, rfl, ?_⟩
        cases hm : firstMismatch 0 headerChecks f with
        | some e => exact .inl ⟨e, rfl, by simp [execSfParse, hw, Config.sfBytes, hu, hf, hm]⟩
        | none => exact .inr ⟨rfl, by simp [execSfParse, hw, Config.sfBytes, hu, hf, hm]⟩

end Sys2Proof.Machine
end

