-- ==== Sys2Proof/Laws/PackBits.lean ====
section
/-! SUPPORT. What every part of the PBE scan leaves alone, and the ranges of S and I that every pass keeps (R113). -/

namespace Sys2Proof.Machine

@[simp] theorem Pbe.emitRun_line (p : Pbe) (n : Nat) (v : Byte) : (p.emitRun n v).line = p.line := by
  simp [Pbe.emitRun]
@[simp] theorem Pbe.emitRun_pbi (p : Pbe) (n : Nat) (v : Byte) : (p.emitRun n v).pbi = p.pbi := by
  simp [Pbe.emitRun]
@[simp] theorem Pbe.emitRun_valid (p : Pbe) (n : Nat) (v : Byte) : (p.emitRun n v).valid = p.valid := by
  simp [Pbe.emitRun]
@[simp] theorem Pbe.emitRun_s (p : Pbe) (n : Nat) (v : Byte) : (p.emitRun n v).s = p.s := by simp [Pbe.emitRun]
@[simp] theorem Pbe.emitRun_i (p : Pbe) (n : Nat) (v : Byte) : (p.emitRun n v).i = p.i := by simp [Pbe.emitRun]
@[simp] theorem Pbe.emitRun_mode (p : Pbe) (n : Nat) (v : Byte) : (p.emitRun n v).mode = p.mode := by
  simp [Pbe.emitRun]

@[simp] theorem Pbe.emitLit_line (p : Pbe) (n a : Nat) : (p.emitLit n a).line = p.line := by simp [Pbe.emitLit]
@[simp] theorem Pbe.emitLit_pbi (p : Pbe) (n a : Nat) : (p.emitLit n a).pbi = p.pbi := by simp [Pbe.emitLit]
@[simp] theorem Pbe.emitLit_valid (p : Pbe) (n a : Nat) : (p.emitLit n a).valid = p.valid := by
  simp [Pbe.emitLit]
@[simp] theorem Pbe.emitLit_s (p : Pbe) (n a : Nat) : (p.emitLit n a).s = p.s := by simp [Pbe.emitLit]
@[simp] theorem Pbe.emitLit_i (p : Pbe) (n a : Nat) : (p.emitLit n a).i = p.i := by simp [Pbe.emitLit]
@[simp] theorem Pbe.emitLit_mode (p : Pbe) (n a : Nat) : (p.emitLit n a).mode = p.mode := by simp [Pbe.emitLit]

/-- The five ways one pass of the scan goes (R115 to R118), with the condition of each. -/
theorem Pbe.scanStep_cases (p : Pbe) :
    (p.i = p.s + 1 ∧ lineByte p.line p.i = lineByte p.line (p.i - 1) ∧
        p.scanStep = { p with mode := .run, i := p.i + 1 }) ∨
    (p.i = p.s + 1 ∧ lineByte p.line p.i ≠ lineByte p.line (p.i - 1) ∧
        p.scanStep = { p with mode := .lit, i := p.i + 1 }) ∨
    (p.i ≠ p.s + 1 ∧ (p.mode = .run ↔ lineByte p.line p.i = lineByte p.line (p.i - 1)) ∧
        p.scanStep = { p with i := p.i + 1 }) ∨
    (p.i ≠ p.s + 1 ∧ p.mode = .run ∧ lineByte p.line p.i ≠ lineByte p.line (p.i - 1) ∧
        p.scanStep =
          { p.emitRun (p.i - p.s) (lineByte p.line p.s) with s := p.i, mode := .run, i := p.i + 1 }) ∨
    (p.i ≠ p.s + 1 ∧ p.mode = .lit ∧ lineByte p.line p.i = lineByte p.line (p.i - 1) ∧
        p.scanStep = { p.emitLit (p.i - 1 - p.s) p.s with s := p.i - 1, mode := .run, i := p.i + 1 }) := by
  by_cases h1 : p.i = p.s + 1
  · by_cases he : lineByte p.line p.i = lineByte p.line (p.i - 1)
    · exact .inl ⟨h1, he, by unfold Pbe.scanStep; simp only [if_pos h1, beq_iff_eq, if_pos he]⟩
    · exact .inr (.inl ⟨h1, he, by unfold Pbe.scanStep; simp only [if_pos h1, beq_iff_eq, if_neg he]⟩)
  · refine .inr (.inr ?_)
    by_cases he : lineByte p.line p.i = lineByte p.line (p.i - 1)
    · have hb : (lineByte p.line p.i == lineByte p.line (p.i - 1)) = true := by simpa using he
      cases hm : p.mode with
      | run =>
        exact .inl ⟨h1, by simp [he], by unfold Pbe.scanStep; simp only [if_neg h1, hm, hb]⟩
      | lit =>
        exact .inr (.inr ⟨h1, rfl, he, by unfold Pbe.scanStep; simp only [if_neg h1, hm, hb]⟩)
    · have hb : (lineByte p.line p.i == lineByte p.line (p.i - 1)) = false := by simpa using he
      cases hm : p.mode with
      | run => exact .inr (.inl ⟨h1, rfl, he, by unfold Pbe.scanStep; simp only [if_neg h1, hm, hb]⟩)
      | lit =>
        exact .inl ⟨h1, by simp [he], by unfold Pbe.scanStep; simp only [if_neg h1, hm, hb]⟩

@[simp] theorem Pbe.scanStep_line (p : Pbe) : p.scanStep.line = p.line := by
  rcases p.scanStep_cases with ⟨_, _, h⟩ | ⟨_, _, h⟩ | ⟨_, _, h⟩ | ⟨_, _, _, h⟩ | ⟨_, _, _, h⟩ <;> rw [h] <;> simp

@[simp] theorem Pbe.scanStep_pbi (p : Pbe) : p.scanStep.pbi = p.pbi := by
  rcases p.scanStep_cases with ⟨_, _, h⟩ | ⟨_, _, h⟩ | ⟨_, _, h⟩ | ⟨_, _, _, h⟩ | ⟨_, _, _, h⟩ <;> rw [h] <;> simp

@[simp] theorem Pbe.scanStep_i (p : Pbe) : p.scanStep.i = p.i + 1 := by
  rcases p.scanStep_cases with ⟨_, _, h⟩ | ⟨_, _, h⟩ | ⟨_, _, h⟩ | ⟨_, _, _, h⟩ | ⟨_, _, _, h⟩ <;> rw [h]

@[simp] theorem Pbe.scanStep_valid (p : Pbe) : p.scanStep.valid = p.valid := by
  rcases p.scanStep_cases with ⟨_, _, h⟩ | ⟨_, _, h⟩ | ⟨_, _, h⟩ | ⟨_, _, _, h⟩ | ⟨_, _, _, h⟩ <;> rw [h] <;> simp

/-- The ranges of R113 that hold before every pass: `S < I`, and in LIT mode the span has two bytes. -/
theorem Pbe.scanStep_span (p : Pbe) (h : p.s < p.i) (hm : p.mode = .lit → p.s + 2 ≤ p.i) :
    p.scanStep.s < p.scanStep.i ∧ (p.scanStep.mode = .lit → p.scanStep.s + 2 ≤ p.scanStep.i) := by
  rcases p.scanStep_cases with ⟨_, _, e⟩ | ⟨_, _, e⟩ | ⟨_, _, e⟩ | ⟨_, _, _, e⟩ | ⟨_, _, _, e⟩ <;> rw [e] <;>
    simp only [reduceCtorEq, false_implies, and_true]
  · omega
  · exact ⟨by omega, fun _ => by omega⟩
  · exact ⟨by omega, fun hl => by have := hm hl; omega⟩
  · omega
  · omega

/-- One pass of the loop, where it goes on. -/
theorem Pbe.scan_succ (fuel : Nat) (p : Pbe) (hi : p.i < 48) (hf : p.fb = false) :
    Pbe.scan (fuel + 1) p = Pbe.scan fuel p.scanStep := by
  show (if _ then _ else _) = _
  rw [if_pos ⟨hi, hf⟩]

/-- The loop where it ends. -/
theorem Pbe.scan_done (fuel : Nat) (p : Pbe) (h : 48 ≤ p.i ∨ p.fb = true) : Pbe.scan fuel p = p := by
  cases fuel with
  | zero => rfl
  | succ fuel =>
    show (if _ then _ else _) = _
    rw [if_neg]
    rintro ⟨h1, h2⟩
    rcases h with h | h
    · exact absurd h1 (Nat.not_lt.mpr h)
    · rw [h2] at h; cases h

/-- Whatever every pass keeps, the loop keeps. -/
theorem Pbe.scan_induct (motive : Pbe → Prop) (fuel : Nat) (p : Pbe)
    (step : ∀ q : Pbe, q.i < 48 → q.fb = false → motive q → motive q.scanStep) (h : motive p) :
    motive (Pbe.scan fuel p) := by
  induction fuel generalizing p with
  | zero => exact h
  | succ fuel ih =>
    by_cases hc : p.i < 48 ∧ p.fb = false
    · rw [Pbe.scan_succ fuel p hc.1 hc.2]
      exact ih _ (step p hc.1 hc.2 h)
    · rw [Pbe.scan_done (fuel + 1) p]
      · exact h
      · by_cases hi : p.i < 48
        · right; cases hb : p.fb with
          | true => rfl
          | false => exact absurd ⟨hi, hb⟩ hc
        · left; omega

@[simp] theorem Pbe.scan_line (fuel : Nat) (p : Pbe) : (Pbe.scan fuel p).line = p.line :=
  Pbe.scan_induct (fun q => q.line = p.line) fuel p (fun q _ _ h => by simpa using h) rfl

@[simp] theorem Pbe.scan_pbi (fuel : Nat) (p : Pbe) : (Pbe.scan fuel p).pbi = p.pbi :=
  Pbe.scan_induct (fun q => q.pbi = p.pbi) fuel p (fun q _ _ h => by simpa using h) rfl

/-- The flush is nothing or one emission (R119). -/
theorem Pbe.flush_cases (p : Pbe) :
    (p.fb = true ∧ p.flush = p) ∨
    (p.fb = false ∧ p.mode = .run ∧ p.flush = p.emitRun (48 - p.s) (lineByte p.line p.s)) ∨
    (p.fb = false ∧ p.mode = .lit ∧ p.flush = p.emitLit (48 - p.s) p.s) := by
  unfold Pbe.flush
  cases hb : p.fb with
  | true => exact .inl ⟨rfl, by simp⟩
  | false => cases hm : p.mode <;> simp [Config.lineBytes]

@[simp] theorem Pbe.flush_line (p : Pbe) : p.flush.line = p.line := by
  rcases p.flush_cases with ⟨_, h⟩ | ⟨_, _, h⟩ | ⟨_, _, h⟩ <;> rw [h] <;> simp

@[simp] theorem Pbe.flush_pbi (p : Pbe) : p.flush.pbi = p.pbi := by
  rcases p.flush_cases with ⟨_, h⟩ | ⟨_, _, h⟩ | ⟨_, _, h⟩ <;> rw [h] <;> simp

/-- What `PB.ENCODE` leaves in PBI, LINE and PB_VALID (R111, R125). -/
@[simp] theorem Pbe.encode_pbi (p : Pbe) (input : List Byte) : (p.encode input).pbi = input := by
  simp [Pbe.encode, Pbe.start]

@[simp] theorem Pbe.encode_line (p : Pbe) (input : List Byte) : (p.encode input).line = normalise input := by
  simp [Pbe.encode, Pbe.start]

@[simp] theorem Pbe.encode_valid (p : Pbe) (input : List Byte) : (p.encode input).valid = true := rfl

end Sys2Proof.Machine
end

