-- ==== Sys2Proof/Laws/Exec.lean ====
section
/-! SUPPORT. What one instruction can do, said once for each unit: a CFE operation ends with its table layout or with
InvalidArgument, a PBE instruction changes PBE alone, and the ways `SF.PARSE` ends are in Laws/Answers.lean. And the
ways one step goes. -/

namespace Sys2Proof.Machine

/-- What CFI holds after a CFE operation: the line of `CF.RASTER`, else what it held. -/
def cfiAfter (i : Instr) (s : State) : List Byte :=
  match i with
  | .cfRaster _ line => line
  | _ => s.cfe.cfi

/-- Delivering what CFI holds already changes nothing. -/
theorem State.deliverCfi_self (s : State) : s.deliverCfi s.cfe.cfi = s := rfl

/-- Every CFE operation ends with the frame of its layout (R79), and with InvalidArgument where its operands have
none (R148, R155). -/
theorem exec_cfe (i : Instr) (s : State) (h : isCfe i = true) :
    exec i s = .next
      (match layout i with
       | some f => (s.deliverCfi (cfiAfter i s)).answerFrame f
       | none => (s.deliverCfi (cfiAfter i s)).answerInvalid) := by
  cases i with
  | cfVoid count => rfl
  | cfStatusReq => rfl
  | cfInit => rfl
  | cfSetMode modes =>
    simp only [exec, execCfSetMode, layout, cfiAfter, State.deliverCfi_self]
    cases modes.resolve ModeSet.ofWire <;> rfl
  | cfSetMargin margin => rfl
  | cfSetEnh enh =>
    simp only [exec, execCfSetEnh, layout, cfiAfter, State.deliverCfi_self]
    cases enh.resolve EnhancedSet.ofWire <;> rfl
  | cfSwitchMode cmode =>
    simp only [exec, execCfSwitchMode, layout, cfiAfter, State.deliverCfi_self]
    cases cmode.resolve CommandMode.ofWire <;> rfl
  | cfRaster comp line =>
    by_cases hc : comp.resolve CompressionMode.ofWire = some .none ∧ line.length ≤ Config.rasterMax
    · have hl : layout (.cfRaster comp line) = some (Wire.capG :: writeStream line) := if_pos hc
      have he : exec (.cfRaster comp line) s = .next ((s.deliverCfi line).answerFrame (rasterFrame line)) :=
        if_pos hc
      rw [hl, he]
      rfl
    · have hl : layout (.cfRaster comp line) = none := if_neg hc
      have he : exec (.cfRaster comp line) s = .next (s.deliverCfi line).answerInvalid := if_neg hc
      rw [hl, he]
      rfl
  | cfZeroRaster => rfl
  | cfPrintPreCut => rfl
  | cfPrint => rfl
  | cfPrintEvac => rfl
  | cfSelComp comp =>
    simp only [exec, execCfSelComp, layout, cfiAfter, State.deliverCfi_self]
    cases comp.resolve CompressionMode.ofWire <;> rfl
  | cfPrintInfo kind width length recovery lowPower =>
    simp only [exec, execCfPrintInfo, layout, cfiAfter, State.deliverCfi_self]
    cases resolveKind kind <;> rfl
  | pbEncode _ => cases h
  | pbRecRun _ _ => cases h
  | pbRecLit _ _ => cases h
  | pbFallback => cases h
  | sfParse => cases h

/-- Every layout of a CFE operation is at most 64 bytes (R140, R157). -/
theorem layout_length_le (i : Instr) (f : List Byte) (h : isCfe i = true) (hf : layout i = some f) :
    f.length ≤ 64 := by
  cases i with
  | cfVoid count =>
    simp only [layout, Option.some.injEq] at hf
    subst hf
    simpa using voidLength_le count
  | cfRaster comp line =>
    simp only [layout] at hf
    split at hf
    · next hc =>
      cases hf
      have := hc.2
      simp only [Config.rasterMax] at this
      simp only [writeStream, List.length_cons]
      omega
    · cases hf
  | cfSetMode _ | cfSetEnh _ | cfSwitchMode _ | cfSelComp _ | cfPrintInfo _ _ _ _ _ =>
    simp only [layout, Option.map_eq_some_iff] at hf
    obtain ⟨_, _, rfl⟩ := hf
    simp
  | cfStatusReq | cfInit | cfSetMargin _ | cfZeroRaster | cfPrintPreCut | cfPrint | cfPrintEvac =>
    simp only [layout, Option.some.injEq] at hf
    subst hf
    simp
  | pbEncode _ | pbRecRun _ _ | pbRecLit _ _ | pbFallback | sfParse => cases h

/-- A PBE instruction that completes changes PBE alone, by `PB.ENCODE` or by one emission. -/
theorem exec_pbe_cases (i : Instr) (s t : State) (h : isPbe i = true) (ht : exec i s = .next t) :
    (∃ input, i = .pbEncode input ∧ t = { s with pbe := s.pbe.encode input }) ∨
    (∃ record, 2 ≤ record.length ∧ t = { s with pbe := s.pbe.emit record }) ∨
    (i = .pbFallback ∧ t = { s with pbe := s.pbe.fallback }) := by
  cases i with
  | pbEncode input =>
    simp only [exec, execPbEncode, Host.Outcome.next.injEq] at ht
    exact .inl ⟨input, rfl, ht.symm⟩
  | pbRecRun n v =>
    refine .inr (.inl ⟨[ctrlRun n, v], by simp, ?_⟩)
    simp only [exec, execPbRecRun] at ht
    split at ht
    · simp only [Host.Outcome.next.injEq] at ht; exact ht.symm
    · cases ht
  | pbRecLit n a =>
    simp only [exec, execPbRecLit] at ht
    split at ht
    · next hn =>
      refine .inr (.inl ⟨ctrlLit n :: lineSlice s.pbe.line a n, ?_, ?_⟩)
      · have h1 := hn.1
        rw [List.length_cons, lineSlice_length _ _ _ hn.2.2]
        omega
      · simp only [Host.Outcome.next.injEq] at ht; exact ht.symm
    · cases ht
  | pbFallback =>
    simp only [exec, execPbFallback, Host.Outcome.next.injEq] at ht
    exact .inr (.inr ⟨rfl, ht.symm⟩)
  | cfVoid _ | cfStatusReq | cfInit | cfSetMode _ | cfSetMargin _ | cfSetEnh _ | cfSwitchMode _ | cfRaster _ _
  | cfZeroRaster | cfPrintPreCut | cfPrint | cfPrintEvac | cfSelComp _ | cfPrintInfo _ _ _ _ _ | sfParse => cases h

/-- The ways `SF.PARSE` completes: a failure with the error it raised, or the success. -/
theorem exec_sfParse_next (s t : State) (h : exec .sfParse s = .next t) :
    s.WindowReady ∧
      ((∃ e, e ≠ .invalidArgument ∧ t = s.sfdEntry.rejectFrame e) ∨
       (∃ f, s.sfd.cur + 32 ≤ s.sfd.lim ∧ Memory.readRange s.sfd.sib s.sfd.cur 32 = .ok f ∧
         firstMismatch 0 headerChecks f = none ∧ t = s.sfdEntry.acceptFrame f)) := by
  simp only [exec] at h
  rcases execSfParse_cases s with ⟨_, e⟩ | ⟨hw, _, e⟩ | ⟨hw, ha, ⟨k, _, e⟩ | ⟨f, hf, ⟨er, her, e⟩ | ⟨hn, e⟩⟩⟩ <;>
    rw [e] at h <;> simp only [Host.Outcome.next.injEq, reduceCtorEq] at h
  · exact ⟨hw, .inl ⟨_, by simp, h.symm⟩⟩
  · refine ⟨hw, .inl ⟨er, ?_, h.symm⟩⟩
    obtain ⟨_, _, _, _, rfl, _⟩ := firstMismatch_isFormat _ _ _ _ her
    simp
  · exact ⟨hw, .inr ⟨f, ha, hf, hn, h.symm⟩⟩

/-- Every instruction is of one unit. -/
theorem unit_cases (i : Instr) : isCfe i = true ∨ isPbe i = true ∨ i = .sfParse := by cases i <;> simp [isCfe, isPbe]

/-- The ways one step that completes goes: an emission taken by itself, idle, a decoded request, or an access of the
host. -/
theorem step_cases (s t : State) (h : step s = .next t) :
    (∃ e, s.emission = some e ∧ exec e.toInstr { s with emission := none } = .next t) ∨
    (s.emission = none ∧
      ((s.inbox = [] ∧ t = s) ∨
       (∃ r rest i, s.inbox = .request r :: rest ∧ decode r = .ok i ∧ exec i { s with inbox := rest } = .next t) ∨
       (∃ x rest, s.inbox = .access x :: rest ∧ State.host { s with inbox := rest } x = .next t))) := by
  cases he : s.emission with
  | some e =>
    simp only [step, he] at h
    exact .inl ⟨e, rfl, h⟩
  | none =>
    refine .inr ⟨rfl, ?_⟩
    cases hi : s.inbox with
    | nil =>
      simp only [step, State.fetch, he, hi, Host.Outcome.next.injEq] at h
      exact .inl ⟨rfl, h.symm⟩
    | cons a rest =>
      simp only [step, State.fetch, he, hi] at h
      cases a with
      | request r =>
        simp only [State.answer] at h
        cases hd : decode r with
        | ok i => rw [hd] at h; exact .inr (.inl ⟨r, rest, i, rfl, hd, h⟩)
        | reject e => rw [hd] at h; cases h
      | access x => exact .inr (.inr ⟨x, rest, rfl, h⟩)

/-- The ways an access of the host that completes goes. -/
theorem host_cases (s t : State) (x : HostAccess) (h : s.host x = .next t) :
    (∃ start data, x = .writeSib start data ∧ start + data.length ≤ Config.sibSize ∧
        t = { s with sfd := { s.sfd with sib := Memory.writeAll s.sfd.sib start data } }) ∨
    (∃ v, x = .setCur v ∧ t = { s with sfd := { s.sfd with cur := v } }) ∨
    (∃ v, x = .setLim v ∧ t = { s with sfd := { s.sfd with lim := v } }) ∨
    (x = .reset ∧ t = s.applyReset) ∨ t = s := by
  cases x with
  | writeSib start data =>
    simp only [State.host, State.writeSib] at h
    split at h
    · next hl =>
      simp only [Host.Outcome.next.injEq] at h
      exact .inl ⟨start, data, rfl, hl, h.symm⟩
    · cases h
  | setCur v =>
    simp only [State.host, Host.Outcome.next.injEq] at h
    exact .inr (.inl ⟨v, rfl, h.symm⟩)
  | setLim v =>
    simp only [State.host, Host.Outcome.next.injEq] at h
    exact .inr (.inr (.inl ⟨v, rfl, h.symm⟩))
  | readPbo k =>
    simp only [State.host, State.observe] at h
    split at h <;> simp only [Host.Outcome.next.injEq, reduceCtorEq] at h
    exact .inr (.inr (.inr (.inr h.symm)))
  | readCfo k =>
    simp only [State.host, State.observe] at h
    split at h <;> simp only [Host.Outcome.next.injEq, reduceCtorEq] at h
    exact .inr (.inr (.inr (.inr h.symm)))
  | readStatus =>
    simp only [State.host, State.observe] at h
    split at h <;> simp only [Host.Outcome.next.injEq, reduceCtorEq] at h
    exact .inr (.inr (.inr (.inr h.symm)))
  | reset =>
    simp only [State.host, Host.Outcome.next.injEq] at h
    exact .inr (.inr (.inr (.inl ⟨rfl, h.symm⟩)))

/-- No operation and no emission changes what the host has lined up or sets an emission (R6). -/
theorem exec_inbox_emission (i : Instr) (s t : State) (h : exec i s = .next t) :
    t.inbox = s.inbox ∧ t.emission = s.emission := by
  rcases unit_cases i with hi | hi | rfl
  · rw [exec_cfe i s hi, Host.Outcome.next.injEq] at h
    subst h
    cases layout i <;> simp
  · rcases exec_pbe_cases i s t hi h with ⟨_, _, rfl⟩ | ⟨_, _, rfl⟩ | ⟨_, rfl⟩ <;> exact ⟨rfl, rfl⟩
  · rcases (exec_sfParse_next s t h).2 with ⟨e, _, rfl⟩ | ⟨_, _, _, _, rfl⟩
    · cases e <;> exact ⟨rfl, rfl⟩
    · exact ⟨rfl, rfl⟩

/-- Every step that completes leaves no emission standing by itself (R6, log entry 2). -/
theorem step_leaves_no_emission (s t : State) (h : step s = .next t) : t.emission = none := by
  rcases step_cases s t h with ⟨e, _, he⟩ | ⟨hn, ⟨_, rfl⟩ | ⟨_, _, _, _, _, he⟩ | ⟨x, _, _, he⟩⟩
  · exact (exec_inbox_emission _ _ _ he).2
  · exact hn
  · exact (exec_inbox_emission _ _ _ he).2.trans hn
  · rcases host_cases _ _ _ he with ⟨_, _, _, _, rfl⟩ | ⟨_, _, rfl⟩ | ⟨_, _, rfl⟩ | ⟨_, rfl⟩ | rfl
    · exact hn
    · exact hn
    · exact hn
    · rfl
    · exact hn

/-- An operation is presented as the host's request (R34). -/
theorem State.present_operation (s : State) (i : Instr) (r : Request) (h : encode i = some r) :
    s.present i = { s with inbox := .request r :: s.inbox, emission := none } := by
  simp only [State.present, h]

/-- A record row is presented as an emission by itself (log entry 2). -/
theorem State.present_record (s : State) (e : Emission) : s.present e.toInstr = { s with emission := some e } := by
  cases e <;> rfl

end Sys2Proof.Machine
end

