-- ==== Sys2Proof/Laws/PerInstr.lean ====
section
/-! SUPPORT. Statements about every instruction as syntax, one lemma a constructor. `Selector`: the request an
instruction is encoded as begins with the `op_sel` of its operation (R95), and a record row, whose `op_sel` is null,
is carried by no request. -/

namespace Sys2Proof.Laws

/-- The operation of R6 an instruction is, none for the three record rows. -/
def operationOf : Instr → Option Operation
  | .cfVoid _ => some .cfVoid
  | .cfStatusReq => some .cfStatusReq
  | .cfInit => some .cfInit
  | .cfSetMode _ => some .cfSetMode
  | .cfSetMargin _ => some .cfSetMargin
  | .cfSetEnh _ => some .cfSetEnh
  | .cfSwitchMode _ => some .cfSwitchMode
  | .cfRaster _ _ => some .cfRaster
  | .cfZeroRaster => some .cfZeroRaster
  | .cfPrintPreCut => some .cfPrintPreCut
  | .cfPrint => some .cfPrint
  | .cfPrintEvac => some .cfPrintEvac
  | .cfSelComp _ => some .cfSelComp
  | .cfPrintInfo _ _ _ _ _ => some .cfPrintInfo
  | .pbEncode _ => some .pbEncode
  | .pbRecRun _ _ => none
  | .pbRecLit _ _ => none
  | .pbFallback => none
  | .sfParse => some .sfParse

/-- An instruction's request begins with its operation's `op_sel`, or there is none. -/
def Selector.Statement (i : Instr) : Prop :=
  match operationOf i with
  | some o => ∃ operands, encode i = some (.numbered (o.opSel :: operands))
  | none => encode i = none

theorem Selector.cfVoid (count : BitVec 32) : Selector.Statement (.cfVoid count) := ⟨_, rfl⟩
theorem Selector.cfStatusReq : Selector.Statement .cfStatusReq := ⟨_, rfl⟩
theorem Selector.cfInit : Selector.Statement .cfInit := ⟨_, rfl⟩
theorem Selector.cfSetMode (modes : PortOperand ModeSet) : Selector.Statement (.cfSetMode modes) := ⟨_, rfl⟩
theorem Selector.cfSetMargin (margin : Half) : Selector.Statement (.cfSetMargin margin) := ⟨_, rfl⟩
theorem Selector.cfSetEnh (enh : PortOperand EnhancedSet) : Selector.Statement (.cfSetEnh enh) := ⟨_, rfl⟩
theorem Selector.cfSwitchMode (cmode : PortOperand CommandMode) : Selector.Statement (.cfSwitchMode cmode) :=
  ⟨_, rfl⟩
theorem Selector.cfRaster (comp : PortOperand CompressionMode) (line : List Byte) :
    Selector.Statement (.cfRaster comp line) := ⟨_, rfl⟩
theorem Selector.cfZeroRaster : Selector.Statement .cfZeroRaster := ⟨_, rfl⟩
theorem Selector.cfPrintPreCut : Selector.Statement .cfPrintPreCut := ⟨_, rfl⟩
theorem Selector.cfPrint : Selector.Statement .cfPrint := ⟨_, rfl⟩
theorem Selector.cfPrintEvac : Selector.Statement .cfPrintEvac := ⟨_, rfl⟩
theorem Selector.cfSelComp (comp : PortOperand CompressionMode) : Selector.Statement (.cfSelComp comp) := ⟨_, rfl⟩
theorem Selector.cfPrintInfo (kind : Option (PortOperand PaperKind)) (width length : Option Byte) (recovery : Bool)
    (lowPower : Byte) : Selector.Statement (.cfPrintInfo kind width length recovery lowPower) := ⟨_, rfl⟩
theorem Selector.pbEncode (input : List Byte) : Selector.Statement (.pbEncode input) := ⟨_, rfl⟩
theorem Selector.pbRecRun (n : Nat) (v : Byte) : Selector.Statement (.pbRecRun n v) := rfl
theorem Selector.pbRecLit (n a : Nat) : Selector.Statement (.pbRecLit n a) := rfl
theorem Selector.pbFallback : Selector.Statement .pbFallback := rfl
theorem Selector.sfParse : Selector.Statement .sfParse := ⟨_, rfl⟩

end Sys2Proof.Laws
end

