-- ==== Sys2Proof/Tests/Slice0.lean ====
section
/-! SUPPORT. The model's own tests: ill-formed terms each check refuses, words written out from the spec's layouts,
one step on the vectors of spec/95_test_vectors.md, and for every statement with hypotheses a concrete state and
operands that meet them. Every expected result is the spec's, none is the model's own answer. -/

namespace Sys2Proof.Tests

open Sys2Proof Sys2Proof.Machine

/-! ### WellFormed refuses one ill-formed term for each check -/

theorem test_illformed_raw_byte_is_member :
    (Instr.cfSwitchMode (.rawByte 0x01#8)).check = [.rawByteIsMember] ∧
    (Instr.cfPrintInfo (some (.rawByte 0x10#8)) none none false 0#8).check = [.rawByteIsMember] ∧
    (Instr.cfSetEnh (.rawByte 0x44#8)).check = [.rawByteIsMember] := by decide

theorem test_illformed_stream_too_long :
    (Instr.pbEncode (List.replicate 65536 0#8)).check = [.streamTooLong] ∧
    (Instr.pbEncode (List.replicate 65535 0#8)).check = [] := by
  simp only [Instr.check, checkStream, List.length_replicate]
  exact ⟨if_neg (by omega), if_pos (by omega)⟩

theorem test_illformed_emission_count :
    (Instr.pbRecRun 0 0x22#8).check = [.emissionCount] ∧ (Instr.pbRecRun 49 0x22#8).check = [.emissionCount] ∧
    (Instr.pbRecRun 48 0x22#8).check = [] := by decide

theorem test_illformed_emission_slice :
    (Instr.pbRecLit 2 47).check = [.emissionSlice] ∧ (Instr.pbRecLit 1 47).check = [] := by decide

/-! ### Words written out bit by bit from the layouts of R79, R88 and R73, first byte first -/

theorem test_word_void : decodeTableWord 24 0b000000000000000000000000 = some (.cfVoid 3#32) := by decide
theorem test_word_statusreq : decodeTableWord 24 0b000110110110100101010011 = some .cfStatusReq := by decide
theorem test_word_init : decodeTableWord 16 0b0001101101000000 = some .cfInit := by decide
theorem test_word_setmode :
    decodeTableWord 32 0b00011011011010010100110110000000 = some (.cfSetMode (.member ⟨false, true⟩)) := by decide
theorem test_word_setmargin :
    decodeTableWord 40 0b0001101101101001011001000000000000000001 = some (.cfSetMargin 0x0100#16) := by decide
theorem test_word_setenh :
    decodeTableWord 32 0b00011011011010010100101101000100 =
      some (.cfSetEnh (.member ⟨true, false, false, true, false⟩)) := by decide
theorem test_word_switchmode :
    decodeTableWord 32 0b00011011011010010110000100000001 = some (.cfSwitchMode (.member .raster)) := by decide
theorem test_word_raster :
    decodeTableWord 40 0b0100011100000010000000001111111110000001 =
      some (.cfRaster (.member .none) [0xFF#8, 0x81#8]) := by decide
theorem test_word_zeroraster : decodeTableWord 8 0b01011010 = some .cfZeroRaster := by decide
theorem test_word_printprecut : decodeTableWord 8 0b00001011 = some .cfPrintPreCut := by decide
theorem test_word_print : decodeTableWord 8 0b00001100 = some .cfPrint := by decide
theorem test_word_printevac : decodeTableWord 8 0b00011010 = some .cfPrintEvac := by decide
theorem test_word_selcomp : decodeTableWord 16 0b0100110100000010 = some (.cfSelComp (.member .tiff)) := by decide
theorem test_word_printinfo :
    decodeTableWord 64 0b0001101101101001011000110000111000010000000011000110010000000001 =
      some (.cfPrintInfo (some (.member .sz)) (some 12#8) (some 100#8) false 1#8) := by decide
theorem test_word_encode :
    decodeTableWord 32 0b11010010000000000000000000000001 =
      some (.pbEncode (List.replicate 47 0x00#8 ++ [0x01#8])) := by decide
theorem test_word_rec_run : decodeTableWord 16 0b1111111100100010 = some (.pbRecRun 2 0x22#8) := by decide
theorem test_word_zero_records :
    decodeTableWord 8 0 = some (.pbRecLit 1 0) ∧ decodeTableWord 16 0 = some (.pbRecRun 1 0x00#8) ∧
    decodeTableWord 0 0 = some (.cfVoid 0#32) := by decide
theorem test_word_rec_lit : decodeTableWord 8 0b00000101 = some (.pbRecLit 6 0) := by decide
theorem test_word_fallback : decodeTableWord 8 0b00101111 = some .pbFallback := by decide
theorem test_word_parse :
    decodeTableWord 64 0b1000000000100000010000100011001100110001001100000000000000011101 = some .sfParse := by decide

/-- A frame whose flag byte has a reserved bit, or whose enumeration byte is no member, is no operation's (R92). -/
theorem test_word_reserved_bits_are_no_frame :
    decodeTableWord 32 0x1B694D01 = none ∧ decodeTableWord 32 0x1B694B10 = none ∧
    decodeTableWord 32 0x1B696102 = none ∧ decodeTableWord 16 0x4D01 = none ∧
    decodeTableWord 64 0x1B69630100000000 = none ∧ decodeTableWord 56 0x80204233313001 = none := by decide

/-! ### Requests at the numbered port, `op_sel` of R95 first -/

theorem test_port_selectors :
    decode (.numbered [0x00#8, 0x03#8, 0x00#8, 0x00#8, 0x00#8]) = .ok (.cfVoid 3#32) ∧
    decode (.numbered [0x01#8]) = .ok .cfStatusReq ∧ decode (.numbered [0x02#8]) = .ok .cfInit ∧
    decode (.numbered [0x03#8, 0x40#8]) = .ok (.cfSetMode (.member ⟨true, false⟩)) ∧
    decode (.numbered [0x04#8, 0x23#8, 0x01#8]) = .ok (.cfSetMargin 0x0123#16) ∧
    decode (.numbered [0x05#8, 0x10#8]) = .ok (.cfSetEnh (.rawByte 0x10#8)) ∧
    decode (.numbered [0x06#8, 0x00#8]) = .ok (.cfSwitchMode (.member .escP)) ∧
    decode (.numbered [0x07#8, 0x02#8, 0x01#8, 0x00#8, 0x01#8]) = .ok (.cfRaster (.member .tiff) [0x01#8]) := by
  decide

theorem test_port_selectors_from_08 :
    decode (.numbered [0x08#8]) = .ok .cfZeroRaster ∧ decode (.numbered [0x09#8]) = .ok .cfPrintPreCut ∧
    decode (.numbered [0x0A#8]) = .ok .cfPrint ∧ decode (.numbered [0x0B#8]) = .ok .cfPrintEvac ∧
    decode (.numbered [0x0C#8, 0x01#8]) = .ok (.cfSelComp (.rawByte 0x01#8)) ∧
    decode (.numbered [0x0D#8, 0xF6#8, 0x01#8, 0x18#8, 0x00#8, 0x00#8]) =
      .ok (.cfPrintInfo (some (.member .laminate)) (some 24#8) none true 0#8) ∧
    decode (.numbered [0x10#8, 0x01#8, 0x00#8, 0xAA#8]) = .ok (.pbEncode [0xAA#8]) ∧
    decode (.numbered [0x20#8]) = .ok .sfParse := by decide

theorem test_port_rejects_by_name :
    decode (.numbered []) = .reject .empty ∧ decode (.numbered [0x0E#8]) = .reject (.unknownOpSel 0x0E#8) ∧
    decode (.numbered [0x04#8, 0x23#8]) = .reject .truncated ∧ decode (.numbered [0x01#8, 0x00#8]) = .reject .trailing ∧
    decode (.numbered [0x0D#8, 0x10#8, 0x00#8, 0x00#8, 0x00#8, 0x00#8]) = .reject .badPrintMask ∧
    decode (.numbered [0x0D#8, 0x00#8, 0x01#8, 0x00#8, 0x00#8, 0x00#8]) = .reject .absentNotZero := by
  decide

/-! ### Helpers for one step -/

/-- The state after reset with one request lined up. -/
def asked (i : Instr) : State := { State.reset with inbox := (encode i).toList.map .request }

/-- What the host reads of CFE's answer: the frame, CF_ERR. -/
def cfAnswer (o : Host.Outcome State Fault Refusal) : Option (Option (List Byte) × BitVec 2) :=
  match o with
  | .next t => some (t.cfResponse, t.cfe.err)
  | .fault _ => none
  | .refused _ => none

/-- What the host reads of PBE's answer: the bytes, PB_FB. -/
def pbAnswer (o : Host.Outcome State Fault Refusal) : Option (Option (List Byte) × Bool) :=
  match o with
  | .next t => some (t.pbResponse, t.pbe.fb)
  | .fault _ => none
  | .refused _ => none

/-- What the host reads of SFD's answer: the StatusFrame, and SF_ERR, SF_EKIND, SF_EOFF, SF_EEXP, SF_EACT. -/
def sfAnswer (o : Host.Outcome State Fault Refusal) :
    Option (Option StatusFrame × BitVec 2 × BitVec 2 × BitVec 3 × Byte × Byte) :=
  match o with
  | .next t => some (t.sfResponse, t.sfd.err, t.sfd.ekind, t.sfd.eoff, t.sfd.eexp, t.sfd.eact)
  | .fault _ => none
  | .refused _ => none

/-- The state after reset with received bytes in SIB from index 0 on, CUR and LIM set. -/
def received (bytes : List Byte) (cur lim : Nat) : State :=
  { State.reset with sfd := { Sfd.reset with sib := Memory.writeAll [] 0 bytes, cur := cur, lim := lim } }

/-- `H, 00 × 25` (S5). -/
def zeroFrame : List Byte := [0x80#8, 0x20#8, 0x42#8, 0x33#8, 0x31#8, 0x30#8, 0x00#8] ++ List.replicate 25 0x00#8

/-- The state after reset with PB_LEN standing at `n`, as after emissions of `n` bytes 00. -/
def emitted (n : Nat) : State :=
  { State.reset with pbe := { Pbe.reset with pbo := Memory.writeAll [] 0 (List.replicate n 0x00#8), len := n } }

/-! ### CFE (vectors W1 to W46) -/

theorem test_void_w1 : cfAnswer (step (asked (.cfVoid 3#32))) = some (some [0#8, 0#8, 0#8], 0#2) := by decide
theorem test_void_w3_minus_one : cfAnswer (step (asked (.cfVoid 0xFFFFFFFF#32))) = some (some [], 0#2) := by decide
theorem test_statusreq_w8 :
    cfAnswer (step (asked .cfStatusReq)) = some (some [0x1B#8, 0x69#8, 0x53#8], 0#2) := by decide
theorem test_init_w9 : cfAnswer (step (asked .cfInit)) = some (some [0x1B#8, 0x40#8], 0#2) := by decide
theorem test_setmode_w11 :
    cfAnswer (step (asked (.cfSetMode (.member ⟨true, false⟩)))) =
      some (some [0x1B#8, 0x69#8, 0x4D#8, 0x40#8], 0#2) := by decide
theorem test_setmode_raw_bit_five : cfAnswer (step (asked (.cfSetMode (.rawByte 0x20#8)))) = some (none, 1#2) := by
  decide
theorem test_setmargin_w15 :
    cfAnswer (step (asked (.cfSetMargin 0x0123#16))) = some (some [0x1B#8, 0x69#8, 0x64#8, 0x23#8, 0x01#8], 0#2) := by
  decide
theorem test_setenh_w25_all_five :
    cfAnswer (step (asked (.cfSetEnh (.member ⟨true, true, true, true, true⟩)))) =
      some (some [0x1B#8, 0x69#8, 0x4B#8, 0xEC#8], 0#2) := by decide
theorem test_setenh_w46_raw_reserved : cfAnswer (step (asked (.cfSetEnh (.rawByte 0x10#8)))) = some (none, 1#2) := by
  decide
theorem test_switchmode_w27 :
    cfAnswer (step (asked (.cfSwitchMode (.member .raster)))) = some (some [0x1B#8, 0x69#8, 0x61#8, 0x01#8], 0#2) := by
  decide
theorem test_raster_w28 :
    cfAnswer (step (asked (.cfRaster (.member .none) [0xFF#8, 0x00#8, 0x81#8]))) =
      some (some [0x47#8, 0x03#8, 0x00#8, 0xFF#8, 0x00#8, 0x81#8], 0#2) := by decide
theorem test_raster_w32_sixty_two_bytes :
    cfAnswer (step (asked (.cfRaster (.member .none) (List.replicate 62 0#8)))) = some (none, 1#2) := by decide
theorem test_zeroraster_w34 : cfAnswer (step (asked .cfZeroRaster)) = some (some [0x5A#8], 0#2) := by decide
theorem test_printprecut_w35 : cfAnswer (step (asked .cfPrintPreCut)) = some (some [0x0B#8], 0#2) := by decide
theorem test_print_w36 : cfAnswer (step (asked .cfPrint)) = some (some [0x0C#8], 0#2) := by decide
theorem test_printevac_w37 : cfAnswer (step (asked .cfPrintEvac)) = some (some [0x1A#8], 0#2) := by decide
theorem test_selcomp_w39 :
    cfAnswer (step (asked (.cfSelComp (.member .tiff)))) = some (some [0x4D#8, 0x02#8], 0#2) := by decide
theorem test_selcomp_w45_raw_one : cfAnswer (step (asked (.cfSelComp (.rawByte 0x01#8)))) = some (none, 1#2) := by
  decide
theorem test_printinfo_w41 :
    cfAnswer (step (asked (.cfPrintInfo (some (.member .laminate)) (some 24#8) none true 0#8))) =
      some (some [0x1B#8, 0x69#8, 0x63#8, 0xF6#8, 0x01#8, 0x18#8, 0x00#8, 0x00#8], 0#2) := by decide
theorem test_printinfo_w43_present_zeros :
    cfAnswer (step (asked (.cfPrintInfo (some (.member .unknown)) (some 0#8) (some 0#8) false 0xFF#8))) =
      some (some [0x1B#8, 0x69#8, 0x63#8, 0x0E#8, 0x00#8, 0x00#8, 0x00#8, 0xFF#8], 0#2) := by decide

/-! ### PBE (vectors S1, V8) and its emissions -/

/-- S1, as the source prints it. -/
theorem test_encode_s1 :
    pbAnswer (step (asked (.pbEncode
      (List.replicate 20 0x00#8 ++ [0x22#8, 0x22#8, 0x23#8, 0xBA#8, 0xBF#8, 0xA2#8, 0x22#8, 0x2B#8])))) =
    some (some [0xED#8, 0x00#8, 0xFF#8, 0x22#8, 0x05#8, 0x23#8, 0xBA#8, 0xBF#8, 0xA2#8, 0x22#8, 0x2B#8, 0xED#8,
      0x00#8], false) := by decide

/-- The line of V8: sixteen groups `x, y, y`. -/
def groupsLine : List Byte :=
  (List.range 16).flatMap fun g => [BitVec.ofNat 8 (3 * g), BitVec.ofNat 8 (3 * g + 1), BitVec.ofNat 8 (3 * g + 1)]

theorem test_encode_v8_guard :
    pbAnswer (step (asked (.pbEncode groupsLine))) = some (some (0x2F#8 :: groupsLine), true) := by decide

/-- A record row of the table placed by `withFetchWord` is run by the next step, and no emission is left (R6). -/
theorem test_placed_record_runs :
    (match step (State.reset.withFetchWord 16 0xED00) with
     | .next t => (t.pbe.pbo, t.pbe.len, t.emission)
     | .fault _ => ([], 0, none)
     | .refused _ => ([], 0, none)) = ([(0, 0xED#8), (1, 0x00#8)], 2, none) := by decide

/-- PBO, PB_LEN and PB_FB after a record emission. -/
def outputRegs (o : Host.Outcome State Fault Refusal) : Option (Memory × Nat × Bool) :=
  match o with
  | .next t => some (t.pbe.pbo, t.pbe.len, t.pbe.fb)
  | .fault _ => none
  | .refused _ => none

theorem test_rec_run_of_twenty :
    outputRegs (exec (.pbRecRun 20 0x22#8) (emitted 0)) = some ([(0, 0xED#8), (1, 0x22#8)], 2, false) := by decide

theorem test_rec_lit_of_two :
    outputRegs (exec (.pbRecLit 2 46) (emitted 1)) =
      some ([(0, 0x00#8), (1, 0x01#8), (2, 0x00#8), (3, 0x00#8)], 4, false) := by decide

theorem test_fallback_length_and_flag :
    (match exec .pbFallback State.reset with
     | .next t => (t.pbe.len, t.pbe.fb, Memory.read t.pbe.pbo 0, Memory.read t.pbe.pbo 48)
     | .fault _ => (0, false, none, none)
     | .refused _ => (0, false, none, none)) = (49, true, some 0x2F#8, some 0x00#8) := by decide

/-! ### SFD (vectors X1, X5) -/

theorem test_parse_x1 :
    sfAnswer (exec .sfParse (received ([0x80#8, 0x20#8, 0x42#8, 0x33#8, 0x31#8, 0x30#8, 0x00#8, 0x1D#8, 0xFF#8, 0xFF#8,
      0x18#8, 0x01#8, 0xAA#8, 0xBB#8, 0xCC#8, 0xDD#8, 0xEE#8, 0x00#8, 0x06#8, 0x01#8, 0x01#8, 0x02#8] ++
      List.replicate 10 0x5A#8) 0 32)) =
    some (some { eec := 0x1D#8, ei := 0xDF5F#16, mw := 0x18#8, mt := 0x01#8, ml := 0x00#8, st := 0x06#8,
                 pt := 0x01#8, pn := 0x0102#16 }, 0#2, 0#2, 0#3, 0#8, 0#8) := by decide

theorem test_parse_x5 :
    sfAnswer (exec .sfParse (received ([0x80#8, 0x20#8, 0x42#8, 0x33#8, 0x31#8, 0x31#8, 0x01#8] ++
      List.replicate 25 0x00#8) 0 32)) = some (none, 2#2, 3#2, 5#3, 0x30#8, 0x31#8) := by decide

/-! ### Witnesses: for every statement with hypotheses, a concrete state and operands that meet all of them

The names are those of the statements. Where a statement has several clauses, there is one conjunct for each, at a
boundary value of its range. -/

/-- 32 written bytes of SIB as a function, for `State.FrameAt`. -/
theorem received_frameAt (bytes : List Byte)
    (hr : ∀ k, k < 32 → Memory.read (Memory.writeAll [] 0 bytes) k = some (bytes.getD k 0#8)) :
    (received bytes 0 32).FrameAt (fun k => bytes.getD k 0#8) where
  window := ⟨Nat.zero_le _, Nat.le_add_left 32 Config.sibSpare⟩
  avail := Nat.le_refl 32
  bytes := by
    intro k hk
    simpa [received] using hr k hk

/-- The state with `zeroFrame` received stands as `State.FrameAt` says. -/
theorem zeroFrame_frameAt : (received zeroFrame 0 32).FrameAt (fun k => zeroFrame.getD k 0#8) :=
  received_frameAt zeroFrame (by decide)

/-- A frame whose first byte is 0x81 (S7), and one whose byte 6 is 0x01 (X7). -/
theorem corrupted_frameAt :
    (received (zeroFrame.set 0 0x81#8) 0 32).FrameAt (fun k => (zeroFrame.set 0 0x81#8).getD k 0#8) ∧
    (received (zeroFrame.set 1 0x1F#8) 0 32).FrameAt (fun k => (zeroFrame.set 1 0x1F#8).getD k 0#8) ∧
    (received (zeroFrame.set 6 0x01#8) 0 32).FrameAt (fun k => (zeroFrame.set 6 0x01#8).getD k 0#8) :=
  ⟨received_frameAt _ (by decide), received_frameAt _ (by decide),
   received_frameAt _ (by decide)⟩

/-- The well-formed terms have a request, or none. -/
theorem witness_RequestDecodesBackFromItsEncoding :
    ((Instr.pbRecLit 48 0).WellFormed ∧ encode (.pbRecLit 48 0) = none) ∧
    (Instr.cfSwitchMode (.rawByte 0x02#8)).WellFormed ∧
    encode (.cfSwitchMode (.rawByte 0x02#8)) = some (.numbered [0x06#8, 0x02#8]) := by decide

theorem witness_DecodedRequestIsWellFormedAndUnique :
    decode (.numbered [0x05#8, 0x10#8]) = .ok (.cfSetEnh (.rawByte 0x10#8)) ∧
    decode (.numbered [0x20#8]) = .ok .sfParse := by decide

theorem witness_CommandFrameNamesItsOperation :
    isCfe (.cfRaster (.member .none) (List.replicate 61 0xFF#8)) = true ∧
    (Instr.cfRaster (.member .none) (List.replicate 61 0xFF#8)).WellFormed ∧
    layout (.cfRaster (.member .none) (List.replicate 61 0xFF#8)) =
      some (0x47#8 :: 0x3D#8 :: 0x00#8 :: List.replicate 61 0xFF#8) := by decide

theorem witness_UnknownSelectorIsRefused :
    (0x0E#8 : Byte) ∉ [0x00#8, 0x01#8, 0x02#8, 0x03#8, 0x04#8, 0x05#8, 0x06#8, 0x07#8, 0x08#8, 0x09#8, 0x0A#8, 0x0B#8,
      0x0C#8, 0x0D#8, 0x10#8, 0x20#8] ∧ State.reset.emission = none ∧
    { State.reset with inbox := [.request (.numbered [0x0E#8])] }.inbox =
      .request (.numbered (0x0E#8 :: [])) :: [] := by decide

theorem witness_StepRunsTheDecodedRequest :
    ((asked .cfInit).emission = none ∧ (asked .cfInit).inbox = .request (.numbered [0x02#8]) :: [] ∧
      decode (.numbered [0x02#8]) = .ok .cfInit) ∧
    { State.reset with emission := some .fallback }.emission = some .fallback := by decide

theorem witness_IdleBlockKeepsItsState : State.reset.emission = none ∧ State.reset.inbox = [] := ⟨rfl, rfl⟩

theorem witness_TableWordIsRunByTheNextStep :
    decodeTableWord 16 0x1B40 = some .cfInit ∧ decodeTableWord 8 0x2F = some .pbFallback := by decide

/-- The third clause: no byte available, and all 32 available and written. -/
theorem witness_EveryRequestGetsAResponse :
    isCfe .cfInit = true ∧ State.reset.WindowReady ∧ (received zeroFrame 0 32).WindowReady ∧
    ∀ a, (received zeroFrame 0 32).sfd.cur ≤ a → a < (received zeroFrame 0 32).sfd.lim →
      (Memory.read (received zeroFrame 0 32).sfd.sib a).isSome = true := by
  refine ⟨rfl, ⟨Nat.le_refl 0, Nat.zero_le _⟩, zeroFrame_frameAt.window, ?_⟩
  intro a _ ha
  have h := zeroFrame_frameAt.bytes a ha
  simp only [received, Nat.zero_add] at h ⊢
  simp [h]

theorem witness_ResetPutsEveryRegisterAtItsResetValue :
    { received zeroFrame 0 32 with inbox := [.access .reset] }.inbox = .access .reset :: [] ∧
    (received zeroFrame 0 32).emission = none := ⟨rfl, rfl⟩

/-- One instruction for each clause. -/
theorem witness_ResetIsUnobservableThroughOperations :
    (∃ t t', exec .cfInit (emitted 2) = .next t ∧ exec .cfInit (emitted 2).applyReset = .next t' ∧
      isCfe .cfInit = true) ∧
    ∃ t t', exec (.pbEncode []) (emitted 2) = .next t ∧ exec (.pbEncode []) (emitted 2).applyReset = .next t' :=
  ⟨⟨_, _, rfl, rfl, rfl⟩, _, _, rfl, rfl⟩

theorem witness_VoidDeliversTheClampedCountOfZeros :
    (0#32).toInt ≤ 0 ∧ (0x80000000#32).toInt ≤ 0 ∧ 64 ≤ (64#32).toInt ∧ 64 ≤ (0x7FFFFFFF#32).toInt := by decide

theorem witness_RasterFramesUncompressedLinesUpTo61Bytes :
    (List.replicate 61 0#8 : List Byte).length ≤ 61 ∧ 61 < (List.replicate 62 0#8 : List Byte).length := by decide

theorem witness_RawOperandOutsideItsSetIsInvalid :
    (0x02#8 : Byte) ∉ [0x00#8, 0x01#8] ∧ (0x01#8 : Byte) ∉ [0x00#8, 0x02#8] ∧
    (0x0A#8 : Byte) ∉ [0x00#8, 0x01#8, 0x02#8, 0x03#8, 0x09#8, 0x10#8] ∧
    (∃ k, k < 6 ∧ (0x20#8 : Byte).getLsbD k = true) ∧
    ((0x10#8 : Byte).getLsbD 0 = true ∨ (0x10#8 : Byte).getLsbD 1 = true ∨ (0x10#8 : Byte).getLsbD 4 = true) :=
  ⟨by decide, by decide, by decide, ⟨5, by decide, by decide⟩, by decide⟩

theorem witness_EveryCommandDeliversItsTableLayout :
    isCfe (.cfSelComp (.rawByte 0x02#8)) = true ∧ layout (.cfSelComp (.rawByte 0x02#8)) = some [0x4D#8, 0x02#8] ∧
    layout (.cfRaster (.member .none) []) = some [0x47#8, 0x00#8, 0x00#8] := by decide

theorem witness_CommandResponseDependsOnOperandsAlone : isCfe (.cfSetEnh (.rawByte 0x01#8)) = true := rfl

/-- An input that is padded and one that is truncated. -/
theorem witness_EncodeDependsOnTheNormalisedLineAlone :
    normalise [] = normalise (List.replicate 60 0x00#8) := by decide

/-- A run that ends at the last byte but one, and the literal before it (line `AB CD, 00 × 45, 01`). -/
theorem witness_SpanBytesMatchTheirKind :
    (⟨.run, 2, 45⟩ : Span) ∈ spans (normalise ([0xAB#8, 0xCD#8] ++ List.replicate 45 0x00#8 ++ [0x01#8])) ∧
    0 < 2 ∧ 2 + 45 < 48 ∧
    (⟨.lit, 0, 2⟩ : Span) ∈ spans (normalise ([0xAB#8, 0xCD#8] ++ List.replicate 45 0x00#8 ++ [0x01#8])) ∧
    0 + 1 < 2 := by decide

theorem witness_RunEmissionAppendsItsTwoBytes :
    1 ≤ 1 ∧ 1 ≤ 48 ∧ (emitted 47).pbe.len + 2 ≤ 49 ∧ 1 ≤ 48 ∧ 48 ≤ 48 ∧ (emitted 0).pbe.len + 2 ≤ 49 := by decide

theorem witness_LiteralEmissionAppendsItsBytes :
    (1 ≤ 48 ∧ 48 ≤ 48 ∧ 0 + 48 ≤ 48 ∧ (emitted 0).pbe.len + 48 + 1 ≤ 49) ∧
    1 ≤ 1 ∧ 1 ≤ 48 ∧ 47 + 1 ≤ 48 ∧ (emitted 47).pbe.len + 1 + 1 ≤ 49 := by decide

theorem witness_GuardReplacesTheOutputAbove49 :
    (1 ≤ 2 ∧ 2 ≤ 48 ∧ 49 < (emitted 48).pbe.len + 2) ∧
    1 ≤ 48 ∧ 48 ≤ 48 ∧ 0 + 48 ≤ 48 ∧ 49 < (emitted 1).pbe.len + 48 + 1 := by decide

/-- Each disjunct of each clause. -/
theorem witness_EmissionOutsideItsSpanIsRefused :
    (0 = 0 ∨ 48 < 0) ∧ (49 = 0 ∨ 48 < 49) ∧ (1 = 0 ∨ 48 < 1 ∨ 48 < 48 + 1) := by decide

theorem witness_ControlBytesStoreCountMinusOne : (1 ≤ 1 ∧ 1 ≤ 48) ∧ (1 ≤ 2 ∧ 2 ≤ 48) ∧ 1 ≤ 48 ∧ 48 ≤ 48 := by decide

theorem witness_ParseExtractsTheFields :
    (received zeroFrame 0 32).FrameAt (fun k => zeroFrame.getD k 0#8) ∧
    ∀ k, k < 7 → zeroFrame.getD k 0#8 = magic k := ⟨zeroFrame_frameAt, by decide⟩

/-- 31 bytes available (X2), and none. -/
theorem witness_ShortInputIsBufferUnderflow :
    ((received zeroFrame 0 31).WindowReady ∧ (received zeroFrame 0 31).sfd.lim - (received zeroFrame 0 31).sfd.cur < 32)
    ∧ State.reset.WindowReady ∧ State.reset.sfd.lim - State.reset.sfd.cur < 32 :=
  ⟨⟨⟨by decide, Nat.le_trans (by decide) (Nat.le_add_left 32 Config.sibSpare)⟩, by decide⟩,
   ⟨Nat.le_refl 0, Nat.zero_le _⟩, by decide⟩

/-- The first wrong byte at 0 (S7), at 1 (X4) and at 6 (X7). -/
theorem witness_FirstWrongHeaderByteIsFormatError :
    ((received (zeroFrame.set 0 0x81#8) 0 32).FrameAt (fun k => (zeroFrame.set 0 0x81#8).getD k 0#8) ∧
      (zeroFrame.set 0 0x81#8).getD 0 0#8 ≠ magic 0) ∧
    ((received (zeroFrame.set 1 0x1F#8) 0 32).FrameAt (fun k => (zeroFrame.set 1 0x1F#8).getD k 0#8) ∧
      (∀ k, k < 1 → (zeroFrame.set 1 0x1F#8).getD k 0#8 = magic k) ∧
      (zeroFrame.set 1 0x1F#8).getD 1 0#8 ≠ magic 1) ∧
    (received (zeroFrame.set 6 0x01#8) 0 32).FrameAt (fun k => (zeroFrame.set 6 0x01#8).getD k 0#8) ∧
      (∀ k, k < 6 → (zeroFrame.set 6 0x01#8).getD k 0#8 = magic k) ∧
      (zeroFrame.set 6 0x01#8).getD 6 0#8 ≠ magic 6 :=
  ⟨⟨corrupted_frameAt.1, by decide⟩, ⟨corrupted_frameAt.2.1, by decide, by decide⟩, corrupted_frameAt.2.2, by decide,
   by decide⟩

theorem witness_FailedParseKeepsFieldsAndBoundsTheCursor :
    ∃ t, exec .sfParse State.reset = .next t ∧ t.sfd.valid = false := ⟨_, rfl, rfl⟩

/-- CUR one above LIM; LIM one above SIB_SIZE. -/
theorem witness_ParseRefusesABrokenWindow :
    (received [] 1 0).sfd.lim < (received [] 1 0).sfd.cur ∧
    Config.sibSize < (received [] 0 (Config.sibSize + 1)).sfd.lim := ⟨by decide, Nat.lt_succ_self _⟩

/-- No byte written (the first is missing), and 31 bytes written (the last is missing). -/
theorem witness_ParseFaultsOnAnUnwrittenByte :
    ((received [] 0 32).WindowReady ∧ (received [] 0 32).sfd.cur + 32 ≤ (received [] 0 32).sfd.lim ∧
      Memory.read (received [] 0 32).sfd.sib 0 = none) ∧
    (received (zeroFrame.take 31) 0 32).WindowReady ∧
    (∀ k, k < 31 → (Memory.read (received (zeroFrame.take 31) 0 32).sfd.sib (0 + k)).isSome = true) ∧
    Memory.read (received (zeroFrame.take 31) 0 32).sfd.sib (0 + 31) = none :=
  ⟨⟨⟨by decide, Nat.le_add_left 32 Config.sibSpare⟩, by decide, by decide⟩,
   ⟨by decide, Nat.le_add_left 32 Config.sibSpare⟩, by decide, by decide⟩

/-- Two frames that differ in the reserved bytes 12 and 31 and in the unused bits 5 of bytes 8 and 9. -/
def otherFrame : List Byte := (((zeroFrame.set 8 0x20#8).set 9 0x20#8).set 12 0xAA#8).set 31 0x5A#8

theorem witness_ReservedBytesAndBitsHaveNoEffect :
    (received zeroFrame 0 32).FrameAt (fun k => zeroFrame.getD k 0#8) ∧
    (received otherFrame 0 32).FrameAt (fun k => otherFrame.getD k 0#8) ∧
    (∀ k, k < 32 → k ≠ 8 → k ≠ 9 → ¬ (12 ≤ k ∧ k ≤ 16) → k < 22 → zeroFrame.getD k 0#8 = otherFrame.getD k 0#8) ∧
    zeroFrame.getD 8 0#8 &&& 0x5F#8 = otherFrame.getD 8 0#8 &&& 0x5F#8 ∧
    zeroFrame.getD 9 0#8 &&& 0xDF#8 = otherFrame.getD 9 0#8 &&& 0xDF#8 :=
  ⟨zeroFrame_frameAt, received_frameAt _ (by decide), by decide, by decide, by decide⟩

/-- A step that changes no field, and one that changes them (X1's payload bytes would do as well). -/
theorem witness_StatusFieldsChangeOnlyByASuccessfulParse :
    (∃ t, step (asked .sfParse) = .next t) ∧
    ∃ t, step { received (zeroFrame.set 7 0x1D#8) 0 32 with inbox := [.request (.numbered [0x20#8])] } = .next t ∧
      t.sfd.valid = true ∧ t.sfd.frame.eec = 0x1D#8 := ⟨⟨_, rfl⟩, _, rfl, rfl, rfl⟩

theorem witness_OperationsNeverWriteSibOrLim : ∃ t, exec .sfParse State.reset = .next t := ⟨_, rfl⟩

/-- A completion for each outcome: no error, InvalidArgument, BufferUnderflow. -/
theorem witness_ErrorsAreRaisedOnlyByTheirOperations :
    (∃ t, exec .cfInit State.reset = .next t ∧ t.errors = []) ∧
    (∃ t, exec (.cfSelComp (.rawByte 0x01#8)) State.reset = .next t ∧ t.errors = [.invalidArgument]) ∧
    ∃ t, exec .sfParse State.reset = .next t ∧ t.errors = [.bufferUnderflow] :=
  ⟨⟨_, rfl, rfl⟩, ⟨_, rfl, rfl⟩, _, rfl, rfl⟩

theorem witness_ZeroErrorCodeMeansValidResponse :
    (∃ t, exec .cfInit State.reset = .next t ∧ t.cfe.valid = true) ∧
    (∃ t, exec (.cfRaster (.member .tiff) []) State.reset = .next t ∧ t.cfe.valid = false) ∧
    ∃ t, exec .sfParse State.reset = .next t ∧ t.sfd.valid = false :=
  ⟨⟨_, rfl, rfl⟩, ⟨_, rfl, rfl⟩, _, rfl, rfl⟩

theorem witness_ErrorRecordOnlyGrows : ∃ t, step (asked .sfParse) = .next t ∧ t.errors = [.bufferUnderflow] :=
  ⟨_, rfl, rfl⟩

/-- One instruction for each unit, and two states that agree on that unit. -/
theorem witness_UnitsShareNoState :
    (∃ t t', exec .cfInit State.reset = .next t ∧ exec .cfInit (emitted 2) = .next t' ∧ isCfe .cfInit = true ∧
      State.reset.cfe = (emitted 2).cfe) ∧
    (∃ t t', exec .pbFallback State.reset = .next t ∧ exec .pbFallback (received [] 1 0) = .next t' ∧
      isPbe .pbFallback = true ∧ State.reset.pbe = (received [] 1 0).pbe) ∧
    ∃ t t', exec .sfParse State.reset = .next t ∧ exec .sfParse (emitted 2) = .next t' ∧
      State.reset.sfd = (emitted 2).sfd ∧ State.reset.draws = (emitted 2).draws :=
  ⟨⟨_, _, rfl, rfl, rfl, rfl⟩, ⟨_, _, rfl, rfl, rfl, rfl⟩, _, _, rfl, rfl, rfl, rfl⟩

/-- A write that ends at the last index of the smallest SIB, and one that begins at SIB_SIZE. -/
theorem witness_HostWritesReachSibOnly :
    ({ State.reset with inbox := [.access (.writeSib 31 [0xAA#8])] }.inbox = .access (.writeSib 31 [0xAA#8]) :: [] ∧
      State.reset.emission = none ∧ 31 + [0xAA#8].length ≤ Config.sibSize) ∧
    Config.sibSize < Config.sibSize + [0xAA#8].length :=
  ⟨⟨rfl, rfl, Nat.le_add_left 32 Config.sibSpare⟩, Nat.lt_succ_self _⟩

/-- One action for each clause. -/
theorem witness_HostSetsCurAndLimAlone :
    State.reset.emission = none ∧
    { State.reset with inbox := [.access (.setCur 0)] }.inbox = .access (.setCur 0) :: [] ∧
    { State.reset with inbox := [.access (.setLim 32)] }.inbox = .access (.setLim 32) :: [] := ⟨rfl, rfl, rfl⟩

/-- The state after `PB.ENCODE in=[]` (V1: `D1 00`) and `CF.INIT` (`1B 40`), with nothing lined up. -/
def answered : State :=
  { State.reset with pbe := Pbe.reset.encode [], cfe := (State.reset.answerFrame [0x1B#8, 0x40#8]).cfe }

/-- The state after `CF.RASTER comp=TIFF` (W33), PBE not used yet. -/
def refusedRaster : State := { State.reset with cfe := State.reset.answerInvalid.cfe, errors := [.invalidArgument] }

theorem answered_inv : answered.Inv where
  emission := rfl
  pboListed := by decide
  pbLen := by decide
  pbMin := by decide
  pbFb := by decide
  pbSpan := by decide
  pbMode := by decide
  pbiLen := by decide
  cfoListed := by decide
  cfLen := by decide
  cfErr := by decide
  cfiLen := by decide
  sibWf := by decide
  sibIn := by intro c hc; cases hc
  sfUnused := by decide
  sfErr := by decide
  sfInfo := by decide
  sfKind := by decide

theorem refusedRaster_inv : refusedRaster.Inv where
  emission := rfl
  pboListed := by decide
  pbLen := by decide
  pbMin := by decide
  pbFb := by decide
  pbSpan := by decide
  pbMode := by decide
  pbiLen := by decide
  cfoListed := by decide
  cfLen := by decide
  cfErr := by decide
  cfiLen := by decide
  sibWf := by decide
  sibIn := by intro c hc; cases hc
  sfUnused := by decide
  sfErr := by decide
  sfInfo := by decide
  sfKind := by decide

/-- The state after `SF.PARSE` on `zeroFrame` (S5): the StatusFrame is valid. -/
def parsed : State := (received zeroFrame 0 32).acceptFrame zeroFrame

theorem parsed_inv : parsed.Inv where
  emission := rfl
  pboListed := by decide
  pbLen := by decide
  pbMin := by decide
  pbFb := by decide
  pbSpan := by decide
  pbMode := by decide
  pbiLen := by decide
  cfoListed := by decide
  cfLen := by decide
  cfErr := by decide
  cfiLen := by decide
  sibWf := by decide
  sibIn := by
    have h : ∀ c ∈ parsed.sfd.sib, c.1 < 32 := by decide
    exact fun c hc => Nat.lt_of_lt_of_le (h c hc) (Nat.le_add_left 32 Config.sibSpare)
  sfUnused := by decide
  sfErr := by decide
  sfInfo := by decide
  sfKind := by decide

/-- For PBO and for CFO: the last valid byte, the first index at the length, the last index of the space, no valid
response, the first index outside; for the StatusFrame, SF_VALID 1 and 0. The premise `Inv` is about the state without
its inbox. -/
theorem witness_HostReadsOnlyTheResponse :
    { answered with inbox := [.access (.readPbo 1)] }.Inv ∧
    (answered.pbe.valid = true ∧ 1 < answered.pbe.len ∧ answered.pbe.len ≤ 2 ∧ answered.pbe.len ≤ 48 ∧ 48 < 49) ∧
    (answered.cfe.valid = true ∧ 1 < answered.cfe.len ∧ answered.cfe.len ≤ 2 ∧ answered.cfe.len ≤ 63 ∧ 63 < 64) ∧
    { refusedRaster with inbox := [.access (.readCfo 0)] }.Inv ∧ refusedRaster.pbe.valid = false ∧
    refusedRaster.cfe.valid = false ∧ refusedRaster.sfd.valid = false ∧
    { parsed with inbox := [.access .readStatus] }.Inv ∧ parsed.sfd.valid = true :=
  ⟨{ answered_inv with }, by decide, by decide, { refusedRaster_inv with }, rfl, rfl, rfl, { parsed_inv with }, rfl⟩

theorem witness_EveryStepKeepsTheInvariant :
    { answered with inbox := [.request (.numbered [0x20#8])] }.Inv ∧
    ∃ t, step { answered with inbox := [.request (.numbered [0x20#8])] } = .next t ∧ t.errors = [.bufferUnderflow] :=
  ⟨{ answered_inv with }, _, rfl, rfl⟩

/-- A state whose PB_VALID is 1, and a step that is no emission. -/
theorem witness_ValidOutputStaysACompletedEncoding :
    answered.PbeResult ∧ answered.emission = none ∧
    step answered = .next answered ∧ answered.pbe.valid = true :=
  ⟨fun _ => by decide, rfl, rfl, rfl⟩

end Sys2Proof.Tests
end

section
/-! PROOFS. R3, that no unit reads or writes another unit's state: for each unit the frame of what its instructions
do, and a comparison of two runs that begin with the same part of that unit. -/

namespace Sys2Proof.Machine

/-! ### CFE -/

theorem cfiAfter_congr (i : Instr) {s s' : State} (h : s.cfe = s'.cfe) : cfiAfter i s = cfiAfter i s' := by
  cases i with
  | cfRaster _ _ => rfl
  | _ => exact congrArg Cfe.cfi h

theorem State.deliverCfi_cfe_congr {s s' : State} (line : List Byte) (h : s.cfe = s'.cfe) :
    (s.deliverCfi line).cfe = (s'.deliverCfi line).cfe := by simp only [State.deliverCfi, h]

theorem State.answerFrame_cfe_congr {s s' : State} (frame : List Byte) (h : s.cfe = s'.cfe) :
    (s.answerFrame frame).cfe = (s'.answerFrame frame).cfe := by simp only [State.answerFrame, h]

theorem State.answerInvalid_cfe_congr {s s' : State} (h : s.cfe = s'.cfe) :
    s.answerInvalid.cfe = s'.answerInvalid.cfe := by simp only [State.answerInvalid, State.raise, h]

/-- A CFE operation changes CFE and the record of errors alone. -/
theorem exec_cfe_onlyCfe (i : Instr) (s t : State) (hi : isCfe i = true) (h : exec i s = .next t) : OnlyCfe s t := by
  rw [exec_cfe i s hi, Host.Outcome.next.injEq] at h
  subst h
  cases layout i with
  | some f => exact ⟨rfl, rfl, rfl, rfl, rfl⟩
  | none => exact ⟨rfl, rfl, rfl, rfl, rfl⟩

/-- What a CFE operation leaves in CFE depends on CFE alone: whether it answers a frame, and which, is settled by its
operands. -/
theorem exec_cfe_congr (i : Instr) (s s' t t' : State) (hi : isCfe i = true) (h : exec i s = .next t)
    (h' : exec i s' = .next t') (hc : s.cfe = s'.cfe) : t.cfe = t'.cfe := by
  have hd : (s.deliverCfi (cfiAfter i s)).cfe = (s'.deliverCfi (cfiAfter i s')).cfe := by
    rw [cfiAfter_congr i hc]
    exact State.deliverCfi_cfe_congr _ hc
  rw [exec_cfe i _ hi, Host.Outcome.next.injEq] at h h'
  subst h h'
  cases layout i with
  | some f => exact State.answerFrame_cfe_congr f hd
  | none => exact State.answerInvalid_cfe_congr hd

/-! ### PBE -/

/-- PBE after a PBE instruction, as a function of PBE before it. -/
def pbeAfter (i : Instr) (p : Pbe) : Pbe :=
  match i with
  | .pbEncode input => p.encode input
  | .pbRecRun n v => p.emitRun n v
  | .pbRecLit n a => p.emitLit n a
  | .pbFallback => p.fallback
  | _ => p

/-- A PBE instruction that completes puts `pbeAfter` of PBE in the place of PBE. -/
theorem exec_pbe (i : Instr) (s t : State) (hi : isPbe i = true) (h : exec i s = .next t) :
    t = { s with pbe := pbeAfter i s.pbe } := by
  cases i with
  | pbEncode input => exact (Host.Outcome.next.inj h).symm
  | pbRecRun n v =>
    simp only [exec, execPbRecRun] at h
    split at h
    · exact (Host.Outcome.next.inj h).symm
    · cases h
  | pbRecLit n a =>
    simp only [exec, execPbRecLit] at h
    split at h
    · exact (Host.Outcome.next.inj h).symm
    · cases h
  | pbFallback => exact (Host.Outcome.next.inj h).symm
  | _ => cases hi

theorem exec_pbe_onlyPbe (i : Instr) (s t : State) (hi : isPbe i = true) (h : exec i s = .next t) : OnlyPbe s t := by
  rw [exec_pbe i s t hi h]
  exact ⟨rfl, rfl, rfl, rfl, rfl, rfl⟩

theorem exec_pbe_congr (i : Instr) (s s' t t' : State) (hi : isPbe i = true) (h : exec i s = .next t)
    (h' : exec i s' = .next t') (hp : s.pbe = s'.pbe) : t.pbe = t'.pbe := by
  rw [exec_pbe i s t hi h, exec_pbe i s' t' hi h']
  exact congrArg (pbeAfter i) hp

/-! ### SFD -/

theorem State.sfdEntry_sfd_congr {s s' : State} (h : s.sfd = s'.sfd) : s.sfdEntry.sfd = s'.sfdEntry.sfd := by
  simp only [State.sfdEntry, h]

theorem State.acceptFrame_sfd_congr {s s' : State} (f : List Byte) (h : s.sfd = s'.sfd) :
    (s.acceptFrame f).sfd = (s'.acceptFrame f).sfd := by simp only [State.acceptFrame, h]

/-- The cursor after a failure is a free draw (R184), so the count of draws is read beside SFD. -/
theorem State.rejectFrame_sfd_congr {s s' : State} (e : CodecError) (h : s.sfd = s'.sfd) (hd : s.draws = s'.draws) :
    (s.rejectFrame e).sfd = (s'.rejectFrame e).sfd := by
  cases e <;> simp only [State.rejectFrame, State.raise, State.drawCursor, h, hd]

/-- `SF.PARSE` changes SFD without SIB and LIM, the record of errors and the count of draws alone. -/
theorem exec_sfParse_onlySfd (s t : State) (h : exec .sfParse s = .next t) : OnlySfd s t := by
  obtain ⟨hw, ⟨e, he, rfl⟩ | ⟨f, _, _, _, rfl⟩⟩ := exec_sfParse_next s t h
  · exact (State.rejectFrame_failed s e hw.cur he).others
  · exact ⟨rfl, rfl, rfl, rfl, rfl, rfl⟩

/-- Two runs of `SF.PARSE` that complete from the same SFD end alike, with the same error or with the
same frame. `execSfParse_cases` speaks of one run, so the two are taken through the checks of R186 side by side. -/
theorem exec_sfParse_same_end (s s' t t' : State) (h : exec .sfParse s = .next t) (h' : exec .sfParse s' = .next t')
    (hs : s.sfd = s'.sfd) :
    (∃ e, t = s.sfdEntry.rejectFrame e ∧ t' = s'.sfdEntry.rejectFrame e) ∨
    (∃ f, t = s.sfdEntry.acceptFrame f ∧ t' = s'.sfdEntry.acceptFrame f) := by
  simp only [exec, execSfParse, ← hs] at h h'
  by_cases hw : s.sfd.lim < s.sfd.cur ∨ Config.sibSize < s.sfd.lim
  · rw [if_pos hw] at h
    cases h
  rw [if_neg hw] at h h'
  by_cases hu : s.sfd.lim - s.sfd.cur < Config.sfBytes
  · rw [if_pos hu, Host.Outcome.next.injEq] at h h'
    exact .inl ⟨_, h.symm, h'.symm⟩
  rw [if_neg hu] at h h'
  cases hf : Memory.readRange s.sfd.sib s.sfd.cur Config.sfBytes with
  | error k =>
    rw [hf] at h
    cases h
  | ok f =>
    simp only [hf] at h h'
    cases hm : firstMismatch 0 headerChecks f with
    | some e =>
      simp only [hm, Host.Outcome.next.injEq] at h h'
      exact .inl ⟨e, h.symm, h'.symm⟩
    | none =>
      simp only [hm, Host.Outcome.next.injEq] at h h'
      exact .inr ⟨f, h.symm, h'.symm⟩

theorem exec_sfParse_congr (s s' t t' : State) (h : exec .sfParse s = .next t) (h' : exec .sfParse s' = .next t')
    (hs : s.sfd = s'.sfd) (hd : s.draws = s'.draws) : t.sfd = t'.sfd := by
  have he : s.sfdEntry.sfd = s'.sfdEntry.sfd := State.sfdEntry_sfd_congr hs
  obtain ⟨e, rfl, rfl⟩ | ⟨f, rfl, rfl⟩ := exec_sfParse_same_end s s' t t' h h' hs
  · exact State.rejectFrame_sfd_congr e he hd
  · exact State.acceptFrame_sfd_congr f he

/-- Settles O54: for each unit, its frame and its two-run comparison. -/
theorem unitsShareNoState : Obligations.UnitsShareNoState := by
  intro i s s' t t' h h'
  refine ⟨fun hi => ⟨exec_cfe_onlyCfe i s t hi h, exec_cfe_congr i s s' t t' hi h h'⟩,
    fun hi => ⟨exec_pbe_onlyPbe i s t hi h, exec_pbe_congr i s s' t t' hi h h'⟩, ?_⟩
  rintro rfl
  exact ⟨exec_sfParse_onlySfd s t h, exec_sfParse_congr s s' t t' h h'⟩

end Sys2Proof.Machine
end

section
/-! PROOFS. R133 and R135: `PB.ENCODE` completes on every input and changes PBE alone, and its result is a function of
the normalised line. Entry and start set every register of PBE, so only PBI can tell two encodings of one line apart;
no part of the scan reads PBI, so a change of PBI commutes with each of them. -/

namespace Sys2Proof.Machine

/-- PBE with another input stream in PBI. -/
def Pbe.withPbi (p : Pbe) (input : List Byte) : Pbe := { p with pbi := input }

@[simp] theorem Pbe.withPbi_line (p : Pbe) (input : List Byte) : (p.withPbi input).line = p.line := rfl
@[simp] theorem Pbe.withPbi_s (p : Pbe) (input : List Byte) : (p.withPbi input).s = p.s := rfl
@[simp] theorem Pbe.withPbi_i (p : Pbe) (input : List Byte) : (p.withPbi input).i = p.i := rfl
@[simp] theorem Pbe.withPbi_mode (p : Pbe) (input : List Byte) : (p.withPbi input).mode = p.mode := rfl
@[simp] theorem Pbe.withPbi_pbo (p : Pbe) (input : List Byte) : (p.withPbi input).pbo = p.pbo := rfl
@[simp] theorem Pbe.withPbi_len (p : Pbe) (input : List Byte) : (p.withPbi input).len = p.len := rfl
@[simp] theorem Pbe.withPbi_fb (p : Pbe) (input : List Byte) : (p.withPbi input).fb = p.fb := rfl
@[simp] theorem Pbe.withPbi_valid (p : Pbe) (input : List Byte) : (p.withPbi input).valid = p.valid := rfl

/-! ### No part of the scan reads PBI -/

theorem Pbe.emit_withPbi (p : Pbe) (input record : List Byte) :
    (p.withPbi input).emit record = (p.emit record).withPbi input := by
  unfold Pbe.emit
  rw [Pbe.withPbi_len]
  split <;> rfl

theorem Pbe.emitRun_withPbi (p : Pbe) (input : List Byte) (n : Nat) (v : Byte) :
    (p.withPbi input).emitRun n v = (p.emitRun n v).withPbi input := p.emit_withPbi input _

theorem Pbe.emitLit_withPbi (p : Pbe) (input : List Byte) (n a : Nat) :
    (p.withPbi input).emitLit n a = (p.emitLit n a).withPbi input := p.emit_withPbi input _

theorem Pbe.scanStep_withPbi (p : Pbe) (input : List Byte) :
    (p.withPbi input).scanStep = p.scanStep.withPbi input := by
  unfold Pbe.scanStep
  simp only [Pbe.withPbi_i, Pbe.withPbi_s, Pbe.withPbi_line, Pbe.withPbi_mode, Pbe.emitRun_withPbi,
    Pbe.emitLit_withPbi]
  by_cases h : p.i = p.s + 1
  · rw [if_pos h, if_pos h]
    rfl
  · rw [if_neg h, if_neg h]
    cases p.mode <;> cases lineByte p.line p.i == lineByte p.line (p.i - 1) <;> rfl

theorem Pbe.scan_withPbi (fuel : Nat) (p : Pbe) (input : List Byte) :
    Pbe.scan fuel (p.withPbi input) = (Pbe.scan fuel p).withPbi input := by
  induction fuel generalizing p with
  | zero => rfl
  | succ fuel ih =>
    by_cases hc : p.i < 48 ∧ p.fb = false
    · obtain ⟨hi, hf⟩ := hc
      rw [Pbe.scan_succ fuel p hi hf, Pbe.scan_succ fuel (p.withPbi input) hi hf, Pbe.scanStep_withPbi, ih]
    · have hd : 48 ≤ p.i ∨ p.fb = true :=
        (not_and_or.mp hc).imp Nat.not_lt.mp Bool.eq_true_of_not_eq_false
      rw [Pbe.scan_done _ p hd, Pbe.scan_done _ (p.withPbi input) hd]

theorem Pbe.flush_withPbi (p : Pbe) (input : List Byte) : (p.withPbi input).flush = p.flush.withPbi input := by
  simp only [Pbe.flush, Pbe.withPbi_fb, Pbe.withPbi_mode, Pbe.withPbi_s, Pbe.withPbi_line, Pbe.emitRun_withPbi,
    Pbe.emitLit_withPbi]
  cases p.fb <;> cases p.mode <;> rfl

/-! ### Two encodings of one line -/

/-- The scan starts alike for one normalised line, whatever PBE held, but for PBI (R22, R111, R112). -/
theorem Pbe.start_eq_withPbi (p q : Pbe) {input input' : List Byte} (h : normalise input = normalise input') :
    p.start input = (q.start input').withPbi input := by
  simp only [Pbe.start, h]
  rfl

theorem Pbe.encode_eq_withPbi (p q : Pbe) {input input' : List Byte} (h : normalise input = normalise input') :
    p.encode input = (q.encode input').withPbi input := by
  simp only [Pbe.encode, p.start_eq_withPbi q h, Pbe.scan_withPbi, Pbe.flush_withPbi]
  rfl

theorem exec_pbEncode (input : List Byte) (s : State) :
    exec (.pbEncode input) s = .next { s with pbe := s.pbe.encode input } := rfl

/-- Settles O31: the two runs leave the same PBE but for PBI, which the response, PB_LEN and PB_FB do not read. -/
theorem encodeDependsOnTheNormalisedLineAlone : Obligations.EncodeDependsOnTheNormalisedLineAlone := by
  intro input input' s s' h
  refine ⟨_, _, exec_pbEncode input s, exec_pbEncode input' s', ?_⟩
  simp only [State.pbResponse, s.pbe.encode_eq_withPbi s'.pbe h, Pbe.withPbi_valid, Pbe.withPbi_pbo,
    Pbe.withPbi_len, Pbe.withPbi_fb, and_self]

/-- Settles O27: `PB.ENCODE` always completes, ends with PB_VALID 1, and is a PBE instruction. -/
theorem encodeIsTotalAndRaisesNoError : Obligations.EncodeIsTotalAndRaisesNoError := by
  intro input s
  have hx := exec_pbEncode input s
  exact ⟨_, hx, s.pbe.encode_valid input, exec_pbe_onlyPbe _ s _ rfl hx⟩

end Sys2Proof.Machine
end

section
/-! PROOFS. R142, R143, R145 to R147, R149 to R153: the frames of the command operations whose operands are members
of closed sets, are a 16-bit number, or are absent. For any member the frame ends with the member's wire value; what
the wire value is, bit by bit or value by value, is a fact about the operand alone. -/

namespace Sys2Proof

/-! ### The bytes of an operand (R81, R86) -/

theorem Half.low_eq_ofNat (x : Half) : x.low = BitVec.ofNat 8 x.toNat := rfl

theorem Half.high_eq_ofNat (x : Half) : x.high = BitVec.ofNat 8 (x.toNat / 256) :=
  congrArg (BitVec.ofNat 8) (Nat.shiftRight_eq_div_pow x.toNat 8)

/-- A flag sets the bits of its mask, and none where it is no member. -/
theorem getLsbD_flagMask (member : Bool) (mask : Byte) (k : Nat) :
    (flagMask member mask).getLsbD k = (member && mask.getLsbD k) := by
  cases member
  · exact BitVec.getLsbD_zero
  · rfl

/-- A bit that no EnhancedMode mask has is 0 in every set's wire value. -/
theorem EnhancedSet.getLsbD_wire_eq_false (e : EnhancedSet) (k : Nat)
    (h : ∀ mask ∈ [0x04#8, 0x08#8, 0x20#8, 0x40#8, 0x80#8], mask.getLsbD k = false) :
    e.wire.getLsbD k = false := by
  simp only [List.forall_mem_cons] at h
  obtain ⟨h4, h8, h20, h40, h80, -⟩ := h
  simp only [EnhancedSet.wire, BitVec.getLsbD_or, getLsbD_flagMask, h4, h8, h20, h40, h80, Bool.and_false,
    Bool.or_false]

end Sys2Proof

namespace Sys2Proof.Machine

/-! ### The frame for any operand -/

theorem cfSetMargin_delivers (margin : Half) (s : State) :
    Delivers (.cfSetMargin margin) s [0x1B#8, 0x69#8, 0x64#8, margin.low, margin.high] :=
  delivers_of_answerFrame _ _ _ rfl

theorem cfSetEnh_member_delivers (e : EnhancedSet) (s : State) :
    Delivers (.cfSetEnh (.member e)) s [0x1B#8, 0x69#8, 0x4B#8, e.wire] :=
  delivers_of_answerFrame _ _ _ rfl

theorem cfSwitchMode_member_delivers (m : CommandMode) (s : State) :
    Delivers (.cfSwitchMode (.member m)) s [0x1B#8, 0x69#8, 0x61#8, m.wire] :=
  delivers_of_answerFrame _ _ _ rfl

theorem cfSelComp_member_delivers (m : CompressionMode) (s : State) :
    Delivers (.cfSelComp (.member m)) s [0x4D#8, m.wire] :=
  delivers_of_answerFrame _ _ _ rfl

/-! ### The statements -/

/-- Settles O16: the two halves of the margin are its value modulo 256 and its quotient by 256. -/
theorem setMarginDeliversTheMarginLowByteFirst : Obligations.SetMarginDeliversTheMarginLowByteFirst := by
  intro margin s
  rw [← Half.low_eq_ofNat, ← Half.high_eq_ofNat]
  exact cfSetMargin_delivers margin s

/-- Settles O17: the byte is the set's wire value, and 0, 1 and 4 are bits of none of the five masks. -/
theorem setEnhancedDeliversTheEnhancedBits : Obligations.SetEnhancedDeliversTheEnhancedBits := by
  intro halfCut nonChain cutOnChain fine copy s
  have reserved := EnhancedSet.getLsbD_wire_eq_false ⟨halfCut, nonChain, cutOnChain, fine, copy⟩
  exact ⟨_, cfSetEnh_member_delivers _ s, rfl, reserved 0 (by decide), reserved 1 (by decide),
    reserved 4 (by decide)⟩

/-- Settles O13: each of the six runs `answerFrame` on its fixed frame. -/
theorem fixedCommandsDeliverTheirFrames : Obligations.FixedCommandsDeliverTheirFrames := fun s =>
  ⟨delivers_of_answerFrame .cfStatusReq s _ rfl, delivers_of_answerFrame .cfInit s _ rfl,
    delivers_of_answerFrame .cfZeroRaster s _ rfl, delivers_of_answerFrame .cfPrintPreCut s _ rfl,
    delivers_of_answerFrame .cfPrint s _ rfl, delivers_of_answerFrame .cfPrintEvac s _ rfl⟩

/-- Settles O18: the frame of any CommandMode, at its two members. -/
theorem switchModeDeliversTheCommandMode : Obligations.SwitchModeDeliversTheCommandMode := fun s =>
  ⟨cfSwitchMode_member_delivers .escP s, cfSwitchMode_member_delivers .raster s⟩

/-- Settles O19: the frame of any CompressionMode, at its two members. -/
theorem selectCompressionDeliversTheMode : Obligations.SelectCompressionDeliversTheMode := fun s =>
  ⟨cfSelComp_member_delivers .none s, cfSelComp_member_delivers .tiff s⟩

end Sys2Proof.Machine
end

section
/-! PROOFS. R89, R179: the thirteen named flags of SF_EI and the set of those whose output is 1. -/

namespace Sys2Proof.Machine

/-- R89's list is complete: it leaves no named flag out of errorInfoSet. -/
@[simp] theorem ErrorFlag.mem_all (f : ErrorFlag) : f ∈ ErrorFlag.all := by
  cases f <;> decide

theorem mem_errorInfoSet (ei : Half) (f : ErrorFlag) : f ∈ errorInfoSet ei ↔ f.output ei = true :=
  List.mem_filter.trans (and_iff_right f.mem_all)

/-- Settles O47: an output is by definition the flag's bit, and the list of the named flags is complete. -/
theorem namedFlagsAreTheirBits : Obligations.NamedFlagsAreTheirBits := fun ei =>
  ⟨rfl, rfl, rfl, rfl, rfl, rfl, rfl, rfl, rfl, rfl, rfl, rfl, rfl, mem_errorInfoSet ei⟩

end Sys2Proof.Machine
end

section
/-! PROOFS. R201: which operation can raise which error. A CFE operation raises InvalidArgument only where its
operands have no layout, which takes `CF.RASTER` or a raw byte; a PBE instruction raises nothing; the errors of
`SF.PARSE` are its own. -/

namespace Sys2Proof

/-- Only a raw byte can fail to name a member of its closed set (R155). -/
theorem PortOperand.exists_rawByte_of_resolve_eq_none {α : Type} {ofWire : Byte → Option α} {op : PortOperand α}
    (h : op.resolve ofWire = none) : ∃ b, op = .rawByte b := by
  cases op with
  | member v => cases h
  | rawByte b => exact ⟨b, rfl⟩

theorem exists_rawByte_of_resolveKind_eq_none {kind : Option (PortOperand PaperKind)} (h : resolveKind kind = none) :
    ∃ b, kind = some (.rawByte b) := by
  cases kind with
  | none => cases h
  | some op =>
    obtain ⟨b, rfl⟩ := PortOperand.exists_rawByte_of_resolve_eq_none (Option.map_eq_none_iff.mp h)
    exact ⟨b, rfl⟩

end Sys2Proof

namespace Sys2Proof.Machine

/-- The CFE operations without a layout are among those R201 lists for InvalidArgument. -/
theorem layout_eq_none_cases (i : Instr) (hi : isCfe i = true) (h : layout i = none) :
    (∃ comp line, i = .cfRaster comp line) ∨ (∃ b, i = .cfSetMode (.rawByte b)) ∨
    (∃ b, i = .cfSetEnh (.rawByte b)) ∨ (∃ b, i = .cfSwitchMode (.rawByte b)) ∨
    (∃ b, i = .cfSelComp (.rawByte b)) ∨
    (∃ b width length recovery lowPower, i = .cfPrintInfo (some (.rawByte b)) width length recovery lowPower) := by
  cases i with
  | cfRaster comp line => exact .inl ⟨comp, line, rfl⟩
  | cfSetMode modes =>
    obtain ⟨b, rfl⟩ := PortOperand.exists_rawByte_of_resolve_eq_none (Option.map_eq_none_iff.mp h)
    exact .inr (.inl ⟨b, rfl⟩)
  | cfSetEnh enh =>
    obtain ⟨b, rfl⟩ := PortOperand.exists_rawByte_of_resolve_eq_none (Option.map_eq_none_iff.mp h)
    exact .inr (.inr (.inl ⟨b, rfl⟩))
  | cfSwitchMode cmode =>
    obtain ⟨b, rfl⟩ := PortOperand.exists_rawByte_of_resolve_eq_none (Option.map_eq_none_iff.mp h)
    exact .inr (.inr (.inr (.inl ⟨b, rfl⟩)))
  | cfSelComp comp =>
    obtain ⟨b, rfl⟩ := PortOperand.exists_rawByte_of_resolve_eq_none (Option.map_eq_none_iff.mp h)
    exact .inr (.inr (.inr (.inr (.inl ⟨b, rfl⟩))))
  | cfPrintInfo kind width length recovery lowPower =>
    obtain ⟨b, rfl⟩ := exists_rawByte_of_resolveKind_eq_none (Option.map_eq_none_iff.mp h)
    exact .inr (.inr (.inr (.inr (.inr ⟨b, width, length, recovery, lowPower, rfl⟩))))
  | cfVoid _ | cfStatusReq | cfInit | cfSetMargin _ | cfZeroRaster | cfPrintPreCut | cfPrint | cfPrintEvac => cases h
  | pbEncode _ | pbRecRun _ _ | pbRecLit _ _ | pbFallback | sfParse => cases hi

/-- A CFE operation raises nothing but InvalidArgument, and that only where it has no layout. -/
theorem exec_cfe_errors (i : Instr) (s t : State) (hi : isCfe i = true) (h : exec i s = .next t) :
    t.errors = s.errors ∨ (layout i = none ∧ t.errors = s.errors ++ [.invalidArgument]) := by
  rw [exec_cfe i s hi, Host.Outcome.next.injEq] at h
  subst h
  cases layout i with
  | some f => exact .inl rfl
  | none => exact .inr ⟨rfl, rfl⟩

/-- `SF.PARSE` raises nothing or one error of its own. -/
theorem exec_sfParse_errors (s t : State) (h : exec .sfParse s = .next t) :
    t.errors = s.errors ∨ ∃ e, e ≠ .invalidArgument ∧ t.errors = s.errors ++ [e] := by
  obtain ⟨hw, ⟨e, he, rfl⟩ | ⟨f, _, _, _, rfl⟩⟩ := exec_sfParse_next s t h
  · exact .inr ⟨e, he, (State.rejectFrame_failed s e hw.cur he).errors⟩
  · exact .inl rfl

/-- Settles O51: unit by unit, with the operands of a CFE operation that has no layout. -/
theorem errorsAreRaisedOnlyByTheirOperations : Obligations.ErrorsAreRaisedOnlyByTheirOperations := by
  intro i s t h
  rcases unit_cases i with hi | hi | rfl
  · rcases exec_cfe_errors i s t hi h with hs | ⟨hl, ha⟩
    · exact .inl hs
    · exact .inr (.inl ⟨hi, ha, layout_eq_none_cases i hi hl⟩)
  · exact .inl (exec_pbe_onlyPbe i s t hi h).errors
  · exact (exec_sfParse_errors s t h).imp_right fun he => .inr ⟨rfl, he⟩

end Sys2Proof.Machine
end

section
/-! PROOFS. R127, R129: the spans of the normal path. One induction over the scan carries what holds of the span that is
still open; each span fits its kind when it is closed, and the next one starts where it ends. -/

namespace Sys2Proof.Machine

/-- What the scan knows of the open span `s..i-1` (R113): two neighbours are equal in RUN mode and differ in LIT mode,
a LIT span has two bytes, and a RUN span is not the rest of a longer run. -/
structure OpenSpan (line : Vector Byte 48) (i s : Nat) (m : SpanMode) : Prop where
  lt : s < i
  bound : i ≤ 48
  two : m = .lit → s + 2 ≤ i
  bytes : ∀ j, s ≤ j → j + 1 < i → (lineByte line j = lineByte line (j + 1) ↔ m = .run)
  before : m = .run → 0 < s → lineByte line (s - 1) ≠ lineByte line s

/-- What holds of a closed span (R129 (a), (f), (g)). -/
structure SpanFits (line : Vector Byte 48) (x : Span) : Prop where
  pos : 1 ≤ x.n
  bound : x.start + x.n ≤ 48
  bytes : ∀ j, x.start ≤ j → j + 1 < x.start + x.n → (lineByte line j = lineByte line (j + 1) ↔ x.kind = .run)
  before : x.kind = .run → 0 < x.start → lineByte line (x.start - 1) ≠ lineByte line x.start
  after : x.kind = .run → x.start + x.n < 48 →
    lineByte line (x.start + x.n - 1) ≠ lineByte line (x.start + x.n)

/-! ### The four ways `scan` of R127 goes on -/

section
variable {line : Vector Byte 48} {k i s : Nat} {m : SpanMode}

theorem spansFrom_second (hi : i + (k + 1) = 48) (h : i = s + 1) :
    spansFrom line (k + 1) s m =
      spansFrom line k s (if lineByte line i = lineByte line (i - 1) then .run else .lit) := by
  have e : Config.lineBytes - (k + 1) = i := by simp only [Config.lineBytes]; omega
  simp only [spansFrom, e, if_pos h, beq_iff_eq]

theorem spansFrom_extend (hi : i + (k + 1) = 48) (h : i ≠ s + 1)
    (hm : m = .run ↔ lineByte line i = lineByte line (i - 1)) :
    spansFrom line (k + 1) s m = spansFrom line k s m := by
  have e : Config.lineBytes - (k + 1) = i := by simp only [Config.lineBytes]; omega
  cases m with
  | run => simp only [spansFrom, e, if_neg h, beq_iff_eq.mpr (hm.mp rfl)]
  | lit =>
    have hb : (lineByte line i == lineByte line (i - 1)) = false := by simpa using hm
    simp only [spansFrom, e, if_neg h, hb]

theorem spansFrom_closeRun (hi : i + (k + 1) = 48) (h : i ≠ s + 1)
    (hb : lineByte line i ≠ lineByte line (i - 1)) :
    spansFrom line (k + 1) s .run = ⟨.run, s, i - s⟩ :: spansFrom line k i .run := by
  have e : Config.lineBytes - (k + 1) = i := by simp only [Config.lineBytes]; omega
  simp only [spansFrom, e, if_neg h, beq_eq_false_iff_ne.mpr hb]

theorem spansFrom_closeLit (hi : i + (k + 1) = 48) (h : i ≠ s + 1)
    (hb : lineByte line i = lineByte line (i - 1)) :
    spansFrom line (k + 1) s .lit = ⟨.lit, s, i - 1 - s⟩ :: spansFrom line k (i - 1) .run := by
  have e : Config.lineBytes - (k + 1) = i := by simp only [Config.lineBytes]; omega
  simp only [spansFrom, e, if_neg h, beq_iff_eq.mpr hb]

/-! ### The open span through one pass -/

theorem OpenSpan.second (h : OpenSpan line i s m) (hi : i < 48) (hs : i = s + 1) :
    OpenSpan line (i + 1) s (if lineByte line i = lineByte line (i - 1) then .run else .lit) := by
  have hm : m = .run := by
    cases m with
    | run => rfl
    | lit => have := h.two rfl; omega
  refine ⟨by omega, by omega, fun _ => by omega, fun j h1 h2 => ?_, fun _ => h.before hm⟩
  obtain rfl : j = i - 1 := by omega
  rw [show i - 1 + 1 = i by omega]
  split <;> simp_all [eq_comm]

theorem OpenSpan.extend (h : OpenSpan line i s m) (hi : i < 48)
    (hm : m = .run ↔ lineByte line i = lineByte line (i - 1)) : OpenSpan line (i + 1) s m := by
  have := h.lt
  refine ⟨by omega, by omega, fun _ => by omega, fun j h1 h2 => ?_, h.before⟩
  by_cases hj : j + 1 < i
  · exact h.bytes j h1 hj
  · obtain rfl : j = i - 1 := by omega
    rw [show i - 1 + 1 = i by omega, eq_comm]
    exact hm.symm

theorem OpenSpan.fits_of_closeRun (h : OpenSpan line i s .run) (hb : lineByte line i ≠ lineByte line (i - 1)) :
    SpanFits line ⟨.run, s, i - s⟩ := by
  have e : s + (i - s) = i := by have := h.lt; omega
  refine ⟨by have := h.lt; show 1 ≤ i - s; omega, ?_, ?_, h.before, ?_⟩ <;> simp only [e]
  · exact h.bound
  · simpa using h.bytes
  · exact fun _ _ => hb.symm

theorem OpenSpan.next_of_closeRun (hi : i < 48) (h0 : 0 < i) (hb : lineByte line i ≠ lineByte line (i - 1)) :
    OpenSpan line (i + 1) i .run :=
  ⟨by omega, by omega, by simp, fun j h1 h2 => by omega, fun _ _ => hb.symm⟩

theorem OpenSpan.fits_of_closeLit (h : OpenSpan line i s .lit) : SpanFits line ⟨.lit, s, i - 1 - s⟩ := by
  have e : s + (i - 1 - s) = i - 1 := by have := h.lt; omega
  have := h.two rfl
  have := h.bound
  refine ⟨by show 1 ≤ i - 1 - s; omega, ?_, ?_, by simp, by simp⟩ <;> simp only [e]
  · omega
  · exact fun j h1 h2 => h.bytes j h1 (by omega)

theorem OpenSpan.next_of_closeLit (h : OpenSpan line i s .lit) (hi : i < 48)
    (hb : lineByte line i = lineByte line (i - 1)) : OpenSpan line (i + 1) (i - 1) .run := by
  have h2 := h.two rfl
  refine ⟨by omega, by omega, by simp, fun j h1 h3 => ?_, fun _ _ he => ?_⟩
  · obtain rfl : j = i - 1 := by omega
    rw [show i - 1 + 1 = i by omega]
    simp [hb]
  · have hl := h.bytes (i - 1 - 1) (by omega) (by omega)
    rw [show i - 1 - 1 + 1 = i - 1 by omega] at hl
    cases hl.mp he

theorem OpenSpan.fits_of_end (h : OpenSpan line 48 s m) : SpanFits line ⟨m, s, 48 - s⟩ := by
  have e : s + (48 - s) = 48 := by have := h.lt; omega
  refine ⟨by have := h.lt; show 1 ≤ 48 - s; omega, ?_, ?_, h.before, ?_⟩ <;> simp only [e]
  · exact Nat.le_refl 48
  · exact h.bytes
  · exact fun _ hlt => absurd hlt (Nat.lt_irrefl 48)

end

/-- The induction over the scan, packaged once: a span that fits closes the list, or comes before spans that start
where it ends. -/
theorem spansFrom_induct (line : Vector Byte 48) (motive : Nat → List Span → Prop)
    (last : ∀ x : Span, SpanFits line x → x.start + x.n = 48 → motive x.start [x])
    (cons : ∀ (x : Span) (xs : List Span), SpanFits line x → motive (x.start + x.n) xs → motive x.start (x :: xs)) :
    ∀ (k i s : Nat) (m : SpanMode), i + k = 48 → OpenSpan line i s m → motive s (spansFrom line k s m) := by
  intro k
  induction k with
  | zero =>
    intro i s m hi h
    obtain rfl : i = 48 := hi
    have := h.lt
    exact last ⟨m, s, 48 - s⟩ h.fits_of_end (by show s + (48 - s) = 48; omega)
  | succ k ih =>
    intro i s m hi h
    have hlt := h.lt
    by_cases hs : i = s + 1
    · rw [spansFrom_second hi hs]
      exact ih (i + 1) s _ (by omega) (h.second (by omega) hs)
    by_cases hm : m = .run ↔ lineByte line i = lineByte line (i - 1)
    · rw [spansFrom_extend hi hs hm]
      exact ih (i + 1) s m (by omega) (h.extend (by omega) hm)
    cases m with
    | run =>
      have hb : lineByte line i ≠ lineByte line (i - 1) := by simpa using hm
      rw [spansFrom_closeRun hi hs hb]
      refine cons ⟨.run, s, i - s⟩ _ (h.fits_of_closeRun hb) ?_
      rw [show s + (i - s) = i by omega]
      exact ih (i + 1) i .run (by omega) (.next_of_closeRun (by omega) (by omega) hb)
    | lit =>
      have hb : lineByte line i = lineByte line (i - 1) := by simpa using hm
      rw [spansFrom_closeLit hi hs hb]
      refine cons ⟨.lit, s, i - 1 - s⟩ _ h.fits_of_closeLit ?_
      rw [show s + (i - 1 - s) = i - 1 by omega]
      exact ih (i + 1) (i - 1) .run (by omega) (h.next_of_closeLit (by omega) hb)

/-- The scan starts with the span of the first byte open (R112). -/
theorem openSpan_start (line : Vector Byte 48) : OpenSpan line 1 0 .run :=
  ⟨by omega, by omega, by simp, fun j h1 h2 => by omega, fun _ h => absurd h (Nat.lt_irrefl 0)⟩

theorem spans_induct (line : Vector Byte 48) (motive : Nat → List Span → Prop)
    (last : ∀ x : Span, SpanFits line x → x.start + x.n = 48 → motive x.start [x])
    (cons : ∀ (x : Span) (xs : List Span), SpanFits line x → motive (x.start + x.n) xs → motive x.start (x :: xs)) :
    motive 0 (spans line) :=
  spansFrom_induct line motive last cons 47 1 0 .run rfl (openSpan_start line)

theorem spans_fit (line : Vector Byte 48) : ∀ x ∈ spans line, SpanFits line x :=
  spans_induct line (fun _ xs => ∀ x ∈ xs, SpanFits line x) (fun _ h _ => by simpa using h)
    (fun _ _ h ih => List.forall_mem_cons.mpr ⟨h, ih⟩)

/-- All bytes of a run are its first byte. -/
theorem SpanFits.run_bytes {line : Vector Byte 48} {x : Span} (h : SpanFits line x) (hr : x.kind = .run) :
    ∀ k, k < x.n → lineByte line (x.start + k) = lineByte line x.start := by
  intro k hk
  induction k with
  | zero => rfl
  | succ k ih =>
    exact ((h.bytes (x.start + k) (by omega) (by omega)).mpr hr).symm.trans (ih (by omega))

/-- Settles O32: each span starts where the one before it ends, which is how the induction over the scan goes. -/
theorem spansPartitionTheLine : Obligations.SpansPartitionTheLine := fun line =>
  spans_induct line Covers (fun _ h he => ⟨rfl, h.pos, he⟩) (fun _ _ h ih => ⟨rfl, h.pos, ih⟩)

/-- Settles O33: every span fits its kind; the byte after a run differs from its last byte, which is its first. -/
theorem spanBytesMatchTheirKind : Obligations.SpanBytesMatchTheirKind := by
  intro line x hx
  have h := spans_fit line x hx
  refine ⟨fun hr => ⟨h.run_bytes hr, h.before hr, fun hlt he => h.after hr hlt ?_⟩, fun hl k hk he => ?_⟩
  · have hp := h.pos
    rw [he, ← h.run_bytes hr (x.n - 1) (by omega), Nat.add_sub_assoc hp]
  · have hrun := (h.bytes (x.start + k) (by omega) (by omega)).mp he
    rw [hl] at hrun
    cases hrun

end Sys2Proof.Machine
end

section
/-! PROOFS. R127, R128, R132: the state machine of `PB.ENCODE` against its functional form. `Encodes` says what PBE
holds when these records have been emitted so far, whether or not the guard has fired: every emission keeps it, so the
scan keeps it pass by pass beside `spansFrom`. -/

namespace Sys2Proof.Machine

/-! ### What PBO holds after some records -/

/-- The output for a sequence of record bytes: those bytes, or the fallback above the guard's limit (R123, R124). -/
def guarded (line : Vector Byte 48) (bytes : List Byte) : List Byte :=
  if bytes.length ≤ 49 then bytes else 0x2F#8 :: line.toList

theorem encodeLine_eq_guarded (line : Vector Byte 48) : encodeLine line = guarded line (normalPath line) := rfl

/-- PBO, PB_LEN and PB_FB stand as after the emission of records with these bytes. -/
structure Pbe.Encodes (p : Pbe) (bytes : List Byte) : Prop where
  len : p.len = (guarded p.line bytes).length
  read : ∀ k, Memory.read p.pbo k = (guarded p.line bytes)[k]?
  fb : p.fb = decide (49 < bytes.length)

theorem guarded_of_le (line : Vector Byte 48) {bytes : List Byte} (h : bytes.length ≤ 49) :
    guarded line bytes = bytes := if_pos h

theorem guarded_of_lt (line : Vector Byte 48) {bytes : List Byte} (h : 49 < bytes.length) :
    guarded line bytes = 0x2F#8 :: line.toList := if_neg (Nat.not_le.mpr h)

theorem Pbe.encodes_nil {p : Pbe} (hl : p.len = 0) (hp : p.pbo = []) (hf : p.fb = false) : p.Encodes [] :=
  ⟨hl, fun k => by rw [hp, guarded_of_le _ (by simp)]; rfl, hf⟩

/-- PB_FB is 0 exactly while the records fit. -/
theorem Pbe.Encodes.length_le {p : Pbe} {bytes : List Byte} (h : p.Encodes bytes) (hf : p.fb = false) :
    bytes.length ≤ 49 := by simpa [h.fb] using hf

/-- Once the guard has fired, no later record matters. -/
theorem Pbe.Encodes.append_of_fb {p : Pbe} {bytes : List Byte} (h : p.Encodes bytes) (hf : p.fb = true)
    (more : List Byte) : p.Encodes (bytes ++ more) := by
  have hlt : 49 < bytes.length := by simpa [h.fb] using hf
  have hlt' : 49 < (bytes ++ more).length := by rw [List.length_append]; omega
  have he : guarded p.line (bytes ++ more) = guarded p.line bytes := by
    rw [guarded_of_lt _ hlt, guarded_of_lt _ hlt']
  exact ⟨he ▸ h.len, he ▸ h.read, by rw [hf, decide_eq_true hlt']⟩

/-- One emission under the guard (R123). -/
theorem Pbe.Encodes.emit {p : Pbe} {bytes : List Byte} (h : p.Encodes bytes) (hf : p.fb = false)
    (record : List Byte) : (p.emit record).Encodes (bytes ++ record) := by
  have hle := h.length_le hf
  obtain ⟨hlen, hread, _⟩ := h
  rw [guarded_of_le _ hle] at hlen hread
  rcases p.emit_cases record with ⟨hfit, he⟩ | ⟨hover, he⟩
  · have hg : (bytes ++ record).length ≤ 49 := by rw [List.length_append, ← hlen]; exact hfit
    refine ⟨?_, fun k => ?_, ?_⟩
    · rw [he, guarded_of_le _ hg]
      simp [hlen]
    · rw [he, guarded_of_le _ hg, Pbe.read_append, hread, hlen]
      split
      · next hk => rw [List.getElem?_append_right hk.1]
      · next hk =>
        by_cases hb : k < bytes.length
        · rw [List.getElem?_append_left hb]
        · rw [List.getElem?_eq_none (by omega), List.getElem?_eq_none (by rw [List.length_append]; omega)]
    · rw [he, Pbe.append_fb, hf]
      simpa using hg
  · have hg : 49 < (bytes ++ record).length := by rw [List.length_append, ← hlen]; exact hover
    refine ⟨?_, fun k => ?_, ?_⟩
    · rw [he, guarded_of_lt _ hg]
      simp
    · rw [he, guarded_of_lt _ hg, Pbe.read_fallback, hread]
      split
      · rfl
      · next hk => rw [List.getElem?_eq_none (by omega), List.getElem?_eq_none (by simpa using hk)]
    · rw [he, Pbe.fallback_fb]
      simpa using hg

/-- What `Encodes` reads of PBE. -/
theorem Pbe.Encodes.congr {p q : Pbe} {bytes : List Byte} (h : p.Encodes bytes) (hl : q.line = p.line)
    (hp : q.pbo = p.pbo) (hn : q.len = p.len) (hf : q.fb = p.fb) : q.Encodes bytes :=
  ⟨by rw [hn, hl, h.len], by rw [hp, hl]; exact h.read, by rw [hf, h.fb]⟩

theorem Pbe.Encodes.setValid {p : Pbe} {bytes : List Byte} (h : p.Encodes bytes) :
    Pbe.Encodes { p with valid := true } bytes := h.congr rfl rfl rfl rfl

/-! ### The simulation -/

theorem Pbe.flush_of_fb {p : Pbe} (hf : p.fb = true) : p.flush = p := if_pos hf

/-- The flush emits the record of the last span (R119). -/
theorem Pbe.flush_eq_emit {p : Pbe} (hf : p.fb = false) :
    p.flush = p.emit (Span.record p.line ⟨p.mode, p.s, 48 - p.s⟩) := by
  rcases p.flush_cases with ⟨h, _⟩ | ⟨_, hm, h⟩ | ⟨_, hm, h⟩
  · rw [hf] at h; cases h
  · rw [h, hm]; rfl
  · rw [h, hm]; rfl

/-- The rest of the scan from a state in which I is `48 - k`, beside the rest of the functional form. -/
theorem Pbe.Encodes.scan_flush (k : Nat) {p : Pbe} {bytes : List Byte} (h : p.Encodes bytes) (hi : p.i + k = 48) :
    (Pbe.scan k p).flush.Encodes (bytes ++ (spansFrom p.line k p.s p.mode).flatMap (Span.record p.line)) := by
  induction k generalizing p bytes with
  | zero =>
    cases hf : p.fb with
    | true =>
      rw [Pbe.scan_done 0 p (.inr hf), Pbe.flush_of_fb hf]
      exact h.append_of_fb hf _
    | false =>
      rw [show Pbe.scan 0 p = p from rfl, Pbe.flush_eq_emit hf]
      simpa [spansFrom, Config.lineBytes] using h.emit hf _
  | succ k ih =>
    cases hf : p.fb with
    | true =>
      rw [Pbe.scan_done _ p (.inr hf), Pbe.flush_of_fb hf]
      exact h.append_of_fb hf _
    | false =>
      rw [Pbe.scan_succ k p (by omega) hf]
      have hi' : p.i + 1 + k = 48 := by omega
      rcases p.scanStep_cases with ⟨hs, hb, e⟩ | ⟨hs, hb, e⟩ | ⟨hs, hm, e⟩ | ⟨hs, hm, hb, e⟩ | ⟨hs, hm, hb, e⟩
      · rw [spansFrom_second hi hs, if_pos hb, e]
        exact ih (h.congr rfl rfl rfl rfl) hi'
      · rw [spansFrom_second hi hs, if_neg hb, e]
        exact ih (h.congr rfl rfl rfl rfl) hi'
      · rw [spansFrom_extend hi hs hm, e]
        exact ih (h.congr rfl rfl rfl rfl) hi'
      · have hr := h.emit hf (Span.record p.line ⟨.run, p.s, p.i - p.s⟩)
        rw [hm, spansFrom_closeRun hi hs hb, e, List.flatMap_cons, ← List.append_assoc]
        simpa using ih (hr.congr rfl rfl rfl rfl : Pbe.Encodes
          { p.emitRun (p.i - p.s) (lineByte p.line p.s) with s := p.i, mode := .run, i := p.i + 1 } _) hi'
      · have hr := h.emit hf (Span.record p.line ⟨.lit, p.s, p.i - 1 - p.s⟩)
        rw [hm, spansFrom_closeLit hi hs hb, e, List.flatMap_cons, ← List.append_assoc]
        simpa using ih (hr.congr rfl rfl rfl rfl : Pbe.Encodes
          { p.emitLit (p.i - 1 - p.s) p.s with s := p.i - 1, mode := .run, i := p.i + 1 } _) hi'

theorem Pbe.start_line (p : Pbe) (input : List Byte) : (p.start input).line = normalise input := rfl
theorem Pbe.start_s (p : Pbe) (input : List Byte) : (p.start input).s = 0 := rfl
theorem Pbe.start_i (p : Pbe) (input : List Byte) : (p.start input).i = 1 := rfl
theorem Pbe.start_mode (p : Pbe) (input : List Byte) : (p.start input).mode = .run := rfl

/-- `PB.ENCODE` leaves PBE as after the emission of the normal path. -/
theorem Pbe.encode_encodes (p : Pbe) (input : List Byte) :
    (p.encode input).Encodes (normalPath (normalise input)) := by
  have h0 : (p.start input).Encodes [] := Pbe.encodes_nil rfl rfl rfl
  have h := h0.scan_flush 47 (p.start_i input ▸ rfl)
  rw [Pbe.start_line, Pbe.start_s, Pbe.start_mode, List.nil_append] at h
  unfold Pbe.encode normalPath spans
  exact h.setValid

/-- The response after `PB.ENCODE`. -/
theorem pbResponse_of_encodes (s : State) {bytes : List Byte} (hv : s.pbe.valid = true) (h : s.pbe.Encodes bytes) :
    s.pbResponse = some (guarded s.pbe.line bytes) := by
  rw [State.pbResponse, if_pos hv, h.len]
  exact outputBytes_of_read _ _ fun k _ => h.read k

theorem pbResponse_encode (s : State) (input : List Byte) :
    State.pbResponse { s with pbe := s.pbe.encode input } = some (encodeLine (normalise input)) := by
  rw [pbResponse_of_encodes { s with pbe := s.pbe.encode input } (s.pbe.encode_valid input)
    (s.pbe.encode_encodes input), encodeLine_eq_guarded, Pbe.encode_line]

theorem Pbe.encode_len (p : Pbe) (input : List Byte) :
    (p.encode input).len = (encodeLine (normalise input)).length := by
  rw [(p.encode_encodes input).len, encodeLine_eq_guarded, Pbe.encode_line]

/-- Settles O28, by the simulation of the scan. -/
theorem encodeMeetsItsFunctionalForm : Obligations.EncodeMeetsItsFunctionalForm := fun input s =>
  ⟨_, exec_pbEncode input s, pbResponse_encode s input, s.pbe.encode_len input, (s.pbe.encode_encodes input).fb⟩

/-- Settles O26: LINE after `PB.ENCODE` is the normal form of the input. -/
theorem encodeNormalisesTheLine : Obligations.EncodeNormalisesTheLine := by
  intro input s
  refine ⟨_, exec_pbEncode input s, s.pbe.encode_pbi input, fun k hk => ?_⟩
  rw [Pbe.encode_line, lineByte_normalise input k hk, List.getD_eq_getElem?_getD]
  split
  · next h => rw [List.getElem?_eq_getElem h]; rfl
  · next h => rw [List.getElem?_eq_none (Nat.not_lt.mp h)]; rfl

/-! ### The length of the output (R128) -/

theorem Span.two_le_record_length {line : Vector Byte 48} {x : Span} (h : SpanFits line x) :
    2 ≤ (x.record line).length := by
  have hp := h.pos
  unfold Span.record
  cases x.kind with
  | run => exact Nat.le_refl 2
  | lit =>
    rw [List.length_cons, lineSlice_length line _ _ h.bound]
    omega

/-- A span that reaches the end of LINE and has a record of two bytes is a run, or the last byte alone. -/
theorem SpanFits.uniform_of_record_length {line : Vector Byte 48} {x : Span} (h : SpanFits line x)
    (he : x.start + x.n = 48) (h2 : (x.record line).length = 2) :
    ∀ j, x.start ≤ j → j < 48 → lineByte line j = lineByte line x.start := by
  intro j h1 hj
  unfold Span.record at h2
  cases hk : x.kind with
  | run =>
    have := h.run_bytes hk (j - x.start) (by omega)
    rwa [Nat.add_sub_cancel' h1] at this
  | lit =>
    simp only [hk, List.length_cons, lineSlice_length line _ _ h.bound] at h2
    obtain rfl : j = x.start := by omega
    rfl

/-- The normal path has two bytes or more, and with two bytes it is one run. -/
theorem normalPath_length (line : Vector Byte 48) :
    2 ≤ (normalPath line).length ∧
      ((normalPath line).length = 2 → ∀ j, j < 48 → lineByte line j = lineByte line 0) := by
  have key := spans_induct line
    (fun k xs => 2 ≤ (xs.flatMap (Span.record line)).length ∧
      ((xs.flatMap (Span.record line)).length = 2 → ∀ j, k ≤ j → j < 48 → lineByte line j = lineByte line k))
    ?_ ?_
  · exact ⟨key.1, fun h j hj => key.2 h j (Nat.zero_le j) hj⟩
  · intro x h he
    rw [List.flatMap_singleton]
    exact ⟨Span.two_le_record_length h, h.uniform_of_record_length he⟩
  · intro x xs h ih
    have hx := Span.two_le_record_length h
    rw [List.flatMap_cons, List.length_append]
    exact ⟨by omega, fun h2 => by omega⟩

/-- Where all bytes are equal, the first span never closes. -/
theorem spansFrom_uniform {line : Vector Byte 48} (h : ∀ j, j < 48 → lineByte line j = lineByte line 0) (k i : Nat)
    (hi : i + k = 48) (h1 : 1 ≤ i) : spansFrom line k 0 .run = [⟨.run, 0, 48⟩] := by
  induction k generalizing i with
  | zero => rfl
  | succ k ih =>
    have hb : lineByte line i = lineByte line (i - 1) := (h i (by omega)).trans (h (i - 1) (by omega)).symm
    by_cases hs : i = 0 + 1
    · rw [spansFrom_second hi hs, if_pos hb]
      exact ih (i + 1) (by omega) (by omega)
    · rw [spansFrom_extend hi hs (iff_of_true rfl hb)]
      exact ih (i + 1) (by omega) (by omega)

theorem normalPath_uniform {line : Vector Byte 48} (h : ∀ j, j < 48 → lineByte line j = lineByte line 0) :
    normalPath line = [ctrlRun 48, lineByte line 0] := by
  rw [normalPath, spans, spansFrom_uniform h 47 1 rfl (Nat.le_refl 1)]
  rfl

theorem encodeLine_length (line : Vector Byte 48) :
    2 ≤ (encodeLine line).length ∧ (encodeLine line).length ≤ 49 ∧
      ((encodeLine line).length = 2 ↔ ∀ j, j < 48 → lineByte line j = lineByte line 0) := by
  obtain ⟨hmin, huni⟩ := normalPath_length line
  rw [encodeLine_eq_guarded]
  by_cases hg : (normalPath line).length ≤ 49
  · rw [guarded_of_le line hg]
    exact ⟨hmin, hg, huni, fun h => by rw [normalPath_uniform h]; rfl⟩
  · rw [guarded_of_lt line (Nat.not_le.mp hg)]
    have hl : (0x2F#8 :: line.toList).length = 49 := by simp
    refine ⟨by omega, by omega, fun h => by omega, fun h => ?_⟩
    rw [normalPath_uniform h] at hg
    exact absurd (by simp) hg

/-- Settles O29: the length of the functional form. -/
theorem encodeOutputIsTwoTo49Bytes : Obligations.EncodeOutputIsTwoTo49Bytes := by
  intro input s
  obtain ⟨hmin, hmax, huni⟩ := encodeLine_length (normalise input)
  exact ⟨_, _, exec_pbEncode input s, pbResponse_encode s input, (s.pbe.encode_len input).symm, hmin, hmax, huni⟩

/-! ### The expansion of the output (R131, R132) -/

theorem expandFuel_nil (fuel : Nat) : expandFuel fuel [] = some [] := by cases fuel <;> rfl

/-- A control byte below 80 takes the bytes after it (R74). -/
theorem expandFuel_of_le (fuel : Nat) (u : Byte) (rest : List Byte) (hu : u.toNat ≤ 0x7F)
    (hl : u.toNat + 1 ≤ rest.length) :
    expandFuel (fuel + 1) (u :: rest) =
      (expandFuel fuel (rest.drop (u.toNat + 1))).map (rest.take (u.toNat + 1) ++ ·) :=
  (if_neg (by omega)).trans ((if_pos hu).trans (if_pos hl))

/-- A run record expands to its byte `n` times; the run of one is read as the literal of one (R75). -/
theorem expandFuel_run (fuel n : Nat) (v : Byte) (rest : List Byte) (h1 : 1 ≤ n) (h2 : n ≤ 48) :
    expandFuel (fuel + 1) (ctrlRun n :: v :: rest) = (expandFuel fuel rest).map (List.replicate n v ++ ·) := by
  have hc := toNat_ctrlRun n
  by_cases hn : n = 1
  · subst hn
    exact expandFuel_of_le fuel (ctrlRun 1) (v :: rest) (by decide) (by simp [hc])
  · have hr : 257 - (ctrlRun n).toNat = n := by omega
    simp only [expandFuel, if_pos (show (ctrlRun n).toNat ≥ 0x81 by omega), hr]

theorem expandFuel_lit (fuel n : Nat) (bytes rest : List Byte) (h1 : 1 ≤ n) (h2 : n ≤ 48) (hl : bytes.length = n) :
    expandFuel (fuel + 1) (ctrlLit n :: (bytes ++ rest)) = (expandFuel fuel rest).map (bytes ++ ·) := by
  have hc := toNat_ctrlLit n (by omega)
  have hn : (ctrlLit n).toNat + 1 = bytes.length := by omega
  rw [expandFuel_of_le _ _ _ (by omega) (by rw [List.length_append]; omega), hn, List.drop_left, List.take_left]

theorem lineSlice_eq_replicate {line : Vector Byte 48} {x : Span} (h : SpanFits line x) (hr : x.kind = .run) :
    lineSlice line x.start x.n = List.replicate x.n (lineByte line x.start) := by
  have hl := lineSlice_length line x.start x.n h.bound
  refine List.ext_getElem? fun k => ?_
  by_cases hk : k < x.n
  · rw [lineSlice_getElem? line _ _ k h.bound hk, h.run_bytes hr k hk, List.getElem?_replicate_of_lt hk]
  · rw [List.getElem?_eq_none (by omega), List.getElem?_eq_none (by simpa using hk)]

/-- The record of a span expands to the span's bytes of LINE. -/
theorem expandFuel_record (fuel : Nat) {line : Vector Byte 48} {x : Span} (h : SpanFits line x) (rest : List Byte) :
    expandFuel (fuel + 1) (x.record line ++ rest) =
      (expandFuel fuel rest).map (lineSlice line x.start x.n ++ ·) := by
  have hp := h.pos
  have hb := h.bound
  unfold Span.record
  cases hk : x.kind with
  | run =>
    rw [lineSlice_eq_replicate h hk]
    exact expandFuel_run fuel x.n _ rest hp (by omega)
  | lit => exact expandFuel_lit fuel x.n _ rest hp (by omega) (lineSlice_length line _ _ hb)

theorem drop_eq_lineSlice_append (line : Vector Byte 48) (a n : Nat) :
    line.toList.drop a = lineSlice line a n ++ line.toList.drop (a + n) := by
  rw [lineSlice, ← List.drop_drop, List.take_append_drop]

theorem expand_normalPath (line : Vector Byte 48) : expand (normalPath line) = some line.toList := by
  have key := spans_induct line
    (fun k xs => ∀ fuel, (xs.flatMap (Span.record line)).length ≤ fuel →
      expandFuel fuel (xs.flatMap (Span.record line)) = some (line.toList.drop k)) ?_ ?_
  · exact key _ (Nat.le_refl _)
  · intro x h he fuel hf
    have hx := Span.two_le_record_length h
    rw [List.flatMap_singleton] at hf
    obtain ⟨fuel, rfl⟩ : ∃ f, fuel = f + 1 := ⟨fuel - 1, by omega⟩
    have hr := expandFuel_record fuel h []
    rw [List.append_nil, expandFuel_nil] at hr
    rw [List.flatMap_singleton, hr, drop_eq_lineSlice_append line x.start x.n, he,
      List.drop_eq_nil_of_le (by simp)]
    rfl
  · intro x xs h ih fuel hf
    have hx := Span.two_le_record_length h
    rw [List.flatMap_cons, List.length_append] at hf
    obtain ⟨fuel, rfl⟩ : ∃ f, fuel = f + 1 := ⟨fuel - 1, by omega⟩
    rw [List.flatMap_cons, expandFuel_record fuel h, ih fuel (by omega), drop_eq_lineSlice_append line x.start x.n]
    rfl

theorem expand_fallback (line : Vector Byte 48) : expand (0x2F#8 :: line.toList) = some line.toList := by
  have h := expandFuel_lit line.toList.length 48 line.toList [] (by omega) (by omega) (by simp)
  rw [List.append_nil, expandFuel_nil] at h
  exact h.trans (by simp)

/-- Settles O30, on the normal path and on the fallback. -/
theorem encodeExpandsBackToTheLine : Obligations.EncodeExpandsBackToTheLine := by
  intro input s
  refine ⟨_, _, exec_pbEncode input s, pbResponse_encode s input, ?_⟩
  rw [encodeLine_eq_guarded, guarded]
  split
  · exact expand_normalPath _
  · exact expand_fallback _

end Sys2Proof.Machine
end

section
/-! PROOFS. R120 to R124: the record emissions taken by themselves, where the guard passes, where it fires, and outside
their span; and the control bytes of R122 as numbers. -/

namespace Sys2Proof.Machine

/-- An appended record changes PBE's output alone. -/
theorem emissionAnswer_append (s : State) (record : List Byte) :
    EmissionAnswer s { s with pbe := s.pbe.append record }
      (fun k => if s.pbe.len ≤ k ∧ k < s.pbe.len + record.length then record[k - s.pbe.len]?
        else Memory.read s.pbe.pbo k)
      (s.pbe.len + record.length) s.pbe.fb :=
  ⟨s.pbe.read_append record, rfl, rfl, rfl, rfl, rfl, rfl, rfl, rfl, ⟨rfl, rfl, rfl, rfl, rfl, rfl⟩⟩

theorem fallbackAnswer_fallback (s : State) : FallbackAnswer s { s with pbe := s.pbe.fallback } := by
  refine ⟨fun k => ?_, rfl, rfl, rfl, rfl, rfl, rfl, rfl, rfl, ⟨rfl, rfl, rfl, rfl, rfl, rfl⟩⟩
  rw [Pbe.read_fallback]
  cases k with
  | zero => rfl
  | succ k => simp [Nat.lt_succ_iff]

theorem Pbe.emit_of_fits {p : Pbe} {record : List Byte} (h : p.len + record.length ≤ 49) :
    p.emit record = p.append record := if_neg (Nat.not_lt.mpr h)

theorem Pbe.emit_of_exceeds {p : Pbe} {record : List Byte} (h : 49 < p.len + record.length) :
    p.emit record = p.fallback := if_pos h

theorem exec_pbRecRun {n : Nat} (v : Byte) (s : State) (h1 : 1 ≤ n) (h2 : n ≤ 48) :
    exec (.pbRecRun n v) s = .next { s with pbe := s.pbe.emit [ctrlRun n, v] } := execPbRecRun_in_span n v s h1 h2

theorem exec_pbRecLit {n a : Nat} (s : State) (h1 : 1 ≤ n) (h2 : n ≤ 48) (h3 : a + n ≤ 48) :
    exec (.pbRecLit n a) s = .next { s with pbe := s.pbe.emit (ctrlLit n :: lineSlice s.pbe.line a n) } :=
  execPbRecLit_in_span n a s h1 h2 h3

/-- The answer says of PBO what any equal description of its bytes says. -/
theorem EmissionAnswer.of_bytes {s t : State} {bytes bytes' : Nat → Option Byte} {len : Nat} {fb : Bool}
    (h : EmissionAnswer s t bytes len fb) (hb : ∀ k, bytes k = bytes' k) : EmissionAnswer s t bytes' len fb :=
  funext hb ▸ h

/-- Settles O34: the record of a run has two bytes, the control byte and the value. -/
theorem runEmissionAppendsItsTwoBytes : Obligations.RunEmissionAppendsItsTwoBytes := by
  intro n v s h1 h2 hl
  rw [exec_pbRecRun v s h1 h2, Pbe.emit_of_fits (record := [ctrlRun n, v]) hl]
  refine ⟨_, rfl, (emissionAnswer_append s [ctrlRun n, v]).of_bytes fun k => ?_⟩
  have hc : ctrlRun n = BitVec.ofNat 8 ((257 - n) % 256) := by
    apply BitVec.eq_of_toNat_eq
    rw [toNat_ctrlRun, BitVec.toNat_ofNat, Nat.mod_mod]
  rw [← hc]
  simp only [List.length_cons, List.length_nil]
  by_cases h0 : k = s.pbe.len
  · subst h0
    simp
  by_cases h1 : k = s.pbe.len + 1
  · subst h1
    simp
  rw [if_neg (by omega), if_neg h0, if_neg h1]

/-- Settles O35: the record of a literal is its control byte and the slice of LINE. -/
theorem literalEmissionAppendsItsBytes : Obligations.LiteralEmissionAppendsItsBytes := by
  intro n a s h1 h2 h3 hl
  have hs := lineSlice_length s.pbe.line a n h3
  have hr : (ctrlLit n :: lineSlice s.pbe.line a n).length = n + 1 := by rw [List.length_cons, hs]
  have ha := emissionAnswer_append s (ctrlLit n :: lineSlice s.pbe.line a n)
  rw [hr] at ha
  rw [exec_pbRecLit s h1 h2 h3, Pbe.emit_of_fits (by rw [hr]; exact hl)]
  refine ⟨_, rfl, ha.of_bytes fun k => ?_⟩
  by_cases h0 : k = s.pbe.len
  · subst h0
    simp [ctrlLit]
  by_cases hk : s.pbe.len < k ∧ k ≤ s.pbe.len + n
  · have he : k - s.pbe.len = (k - s.pbe.len - 1) + 1 := by omega
    rw [if_pos (by omega), if_neg h0, if_pos hk, he, List.getElem?_cons_succ,
      lineSlice_getElem? _ _ _ _ h3 (by omega), Nat.add_sub_cancel]
  · rw [if_neg (by omega), if_neg h0, if_neg hk]

/-- Settles O36, by what a read gives after the fallback. -/
theorem fallbackWritesTheWholeLine : Obligations.FallbackWritesTheWholeLine := fun s =>
  ⟨_, rfl, fallbackAnswer_fallback s⟩

/-- Settles O37: an emission above the limit is the fallback, whatever its record. -/
theorem guardReplacesTheOutputAbove49 : Obligations.GuardReplacesTheOutputAbove49 := by
  refine fun s => ⟨fun n v h1 h2 hl => ?_, fun n a h1 h2 h3 hl => ?_⟩
  · rw [exec_pbRecRun v s h1 h2, Pbe.emit_of_exceeds (record := [ctrlRun n, v]) hl]
    exact ⟨_, rfl, fallbackAnswer_fallback s⟩
  · rw [exec_pbRecLit s h1 h2 h3, Pbe.emit_of_exceeds]
    · exact ⟨_, rfl, fallbackAnswer_fallback s⟩
    · rw [List.length_cons, lineSlice_length _ _ _ h3]
      exact hl

/-- Settles O38: the range is checked before anything else. -/
theorem emissionOutsideItsSpanIsRefused : Obligations.EmissionOutsideItsSpanIsRefused := by
  refine ⟨fun n v s h => if_neg ?_, fun n a s h => if_neg ?_⟩ <;> simp only [Config.lineBytes] <;> omega

/-- Settles O39: for each of the 48 span lengths. -/
theorem controlBytesStoreCountMinusOne : Obligations.ControlBytesStoreCountMinusOne := by
  intro n h1 h2
  have hr := toNat_ctrlRun n
  have hl := toNat_ctrlLit n (by omega)
  simp only [sbyte, hr, hl]
  refine ⟨?_, ?_, trivial, ?_, ?_⟩
  · split <;> omega
  · rw [if_pos (by omega)]
    omega
  · rintro rfl
    rfl
  · omega

end Sys2Proof.Machine
end

section
/-! PROOFS. R35, R95, R96 at the request port: `decode` and `encode` are the two directions of one relation between
well-formed operations and requests. Each reader of operand bytes accepts exactly what the writer beside it writes. -/

namespace Sys2Proof

/-! ### The selector (R95) -/

theorem Operation.ofSel_opSel (o : Operation) : Operation.ofSel o.opSel = some o := by cases o <;> decide

theorem Operation.ofSel_eq_some_iff (o : Operation) (sel : Byte) :
    Operation.ofSel sel = some o ↔ sel = o.opSel := by
  refine ⟨fun h => ?_, fun h => h ▸ o.ofSel_opSel⟩
  have hs := List.find?_some h
  exact (of_decide_eq_true hs).symm

/-- Settles O5: the table is the selector function, written out. -/
theorem selectorsNameDistinctOperations : Obligations.SelectorsNameDistinctOperations := by
  intro o sel
  rw [Operation.ofSel_eq_some_iff]
  cases o <;> rfl

/-! ### One operand byte (R155) -/

/-- The wire values of a closed set and their reading are inverse to each other. -/
structure WirePair {α : Type} (wire : α → Byte) (ofWire : Byte → Option α) : Prop where
  ofWire_wire : ∀ v, ofWire (wire v) = some v
  wire_of_ofWire : ∀ {b v}, ofWire b = some v → wire v = b

theorem CommandMode.wirePair : WirePair CommandMode.wire CommandMode.ofWire := ⟨ofWire_wire, wire_of_ofWire⟩
theorem CompressionMode.wirePair : WirePair CompressionMode.wire CompressionMode.ofWire :=
  ⟨ofWire_wire, wire_of_ofWire⟩
theorem PaperKind.wirePair : WirePair PaperKind.wire PaperKind.ofWire := ⟨ofWire_wire, wire_of_ofWire⟩
theorem ModeSet.wirePair : WirePair ModeSet.wire ModeSet.ofWire := ⟨ofWire_wire, wire_of_ofWire⟩
theorem EnhancedSet.wirePair : WirePair EnhancedSet.wire EnhancedSet.ofWire := ⟨ofWire_wire, wire_of_ofWire⟩

section
variable {α : Type} {wire : α → Byte} {ofWire : Byte → Option α}

/-- A raw byte is well formed only where it is no member's wire value. -/
theorem PortOperand.ofWire_eq_none_of_check {b : Byte} (h : (PortOperand.rawByte b).check ofWire = []) :
    ofWire b = none := by
  cases hb : ofWire b with
  | none => rfl
  | some v => simp [PortOperand.check, hb] at h

theorem PortOperand.ofByte_toByte (hw : WirePair wire ofWire) {op : PortOperand α} (h : op.check ofWire = []) :
    PortOperand.ofByte ofWire (op.toByte wire) = op := by
  cases op with
  | member v => simp only [toByte, ofByte, hw.ofWire_wire]
  | rawByte b => simp only [toByte, ofByte, ofWire_eq_none_of_check h]

theorem PortOperand.toByte_ofByte (hw : WirePair wire ofWire) (b : Byte) :
    (PortOperand.ofByte ofWire b).toByte wire = b := by
  unfold ofByte
  split
  · next v hv => exact hw.wire_of_ofWire hv
  · rfl

theorem PortOperand.check_ofByte (b : Byte) : (PortOperand.ofByte ofWire b).check ofWire = [] := by
  unfold ofByte
  split
  · rfl
  · next hb => simp [check, hb]

end

/-! ### What each reader accepts -/

theorem readNone_eq_ok_iff {bytes : List Byte} {i j : Instr} : readNone bytes i = .ok j ↔ bytes = [] ∧ i = j := by
  unfold readNone
  split <;> simp_all

theorem readByte_eq_ok_iff {bytes : List Byte} {mk : Byte → Instr} {j : Instr} :
    readByte bytes mk = .ok j ↔ ∃ b, bytes = [b] ∧ mk b = j := by
  unfold readByte
  split <;> simp_all

theorem readCount_eq_ok_iff {bytes : List Byte} {j : Instr} :
    readCount bytes = .ok j ↔ ∃ c, bytes = writeCount c ∧ Instr.cfVoid c = j := by
  constructor
  · intro h
    unfold readCount at h
    split at h
    · exact ⟨_, (writeCount_append _ _ _ _).symm, DecodeResult.ok.inj h⟩
    · split at h <;> cases h
  · rintro ⟨c, rfl, rfl⟩
    exact readCount_writeCount c

theorem readMargin_eq_ok_iff {bytes : List Byte} {j : Instr} :
    readMargin bytes = .ok j ↔ ∃ m : Half, bytes = [m.low, m.high] ∧ Instr.cfSetMargin m = j := by
  constructor
  · intro h
    unfold readMargin at h
    split at h
    · exact ⟨_, by rw [Half.low_ofBytes, Half.high_ofBytes], DecodeResult.ok.inj h⟩
    · split at h <;> cases h
  · rintro ⟨m, rfl, rfl⟩
    simp only [readMargin, Half.ofBytes_high_low]

theorem readStream_eq_ok_iff {bytes : List Byte} {mk : List Byte → Instr} {j : Instr} :
    readStream bytes mk = .ok j ↔ ∃ data, data.length < 65536 ∧ bytes = writeStream data ∧ mk data = j := by
  constructor
  · intro h
    unfold readStream at h
    split at h
    · next low high rest =>
      have hn : (Half.ofBytes high low).toNat < 65536 := (Half.ofBytes high low).isLt
      simp only at h
      split at h
      · cases h
      split at h
      · cases h
      have hl : rest.length = (Half.ofBytes high low).toNat := by omega
      refine ⟨rest, by omega, ?_, DecodeResult.ok.inj h⟩
      simp only [writeStream, hl, BitVec.ofNat_toNat, BitVec.setWidth_eq, Half.low_ofBytes, Half.high_ofBytes]
    · cases h
  · rintro ⟨data, hl, rfl, rfl⟩
    simp only [readStream, writeStream, toNat_stream_length _ hl, lt_irrefl, if_false]

theorem readRaster_eq_ok_iff {bytes : List Byte} {j : Instr} :
    readRaster bytes = .ok j ↔ ∃ comp data, data.length < 65536 ∧ bytes = comp :: writeStream data ∧
      Instr.cfRaster (.ofByte CompressionMode.ofWire comp) data = j := by
  cases bytes with
  | nil => simp [readRaster]
  | cons b rest =>
    simp only [readRaster, readStream_eq_ok_iff, List.cons.injEq]
    constructor
    · rintro ⟨data, hl, rfl, rfl⟩
      exact ⟨b, data, hl, ⟨rfl, rfl⟩, rfl⟩
    · rintro ⟨comp, data, hl, ⟨rfl, rfl⟩, rfl⟩
      exact ⟨data, hl, rfl, rfl⟩

/-! ### `CF.PRINTINFO` (R85) -/

/-- What the presence mask says: one bit a field, and it is legal. -/
theorem printMask_bits (k w l r : Bool) :
    printMaskLegal (printMask k w l r) = true ∧ (printMask k w l r).getLsbD 1 = k ∧
      (printMask k w l r).getLsbD 2 = w ∧ (printMask k w l r).getLsbD 3 = l ∧ (printMask k w l r).getLsbD 7 = r := by
  revert k w l r
  decide

/-- A legal mask is the mask of what its bits say. -/
theorem printMask_of_legal {mask : Byte} (h : printMaskLegal mask = true) :
    printMask (mask.getLsbD 1) (mask.getLsbD 2) (mask.getLsbD 3) (mask.getLsbD 7) = mask := by
  revert h
  revert mask
  decide

/-- The byte of an optional kind at the port. -/
def kindPortByte (kind : Option (PortOperand PaperKind)) : Byte :=
  match kind with
  | none => 0#8
  | some k => k.toByte PaperKind.wire

theorem writePrintInfo_eq (kind : Option (PortOperand PaperKind)) (width length : Option Byte) (recovery : Bool)
    (lowPower : Byte) :
    writePrintInfo kind width length recovery lowPower =
      [printMask kind.isSome width.isSome length.isSome recovery, kindPortByte kind, width.getD 0#8,
       length.getD 0#8, lowPower] := by
  cases kind <;> rfl

/-- An optional byte is its presence bit and its value, which is 0 where it is absent. -/
theorem present_getD (x : Option Byte) :
    (!x.isSome && x.getD 0#8 != 0#8) = false ∧ (if x.isSome then some (x.getD 0#8) else none) = x := by
  cases x <;> simp

theorem getD_of_absent_zero {present : Bool} {x : Byte} (h : (!present && x != 0#8) = false) :
    (if present then some x else none).isSome = present ∧ (if present then some x else none).getD 0#8 = x := by
  cases present <;> simp_all

theorem present_kindPortByte (kind : Option (PortOperand PaperKind))
    (h : ∀ k ∈ kind, k.check PaperKind.ofWire = []) :
    (!kind.isSome && kindPortByte kind != 0#8) = false ∧
      (if kind.isSome then some (PortOperand.ofByte PaperKind.ofWire (kindPortByte kind)) else none) = kind := by
  cases kind with
  | none => simp [kindPortByte]
  | some k => simp [kindPortByte, PortOperand.ofByte_toByte PaperKind.wirePair (h k rfl)]

theorem kindPortByte_of_absent_zero {present : Bool} {x : Byte} (h : (!present && x != 0#8) = false) :
    (if present then some (PortOperand.ofByte PaperKind.ofWire x) else none).isSome = present ∧
      kindPortByte (if present then some (.ofByte PaperKind.ofWire x) else none) = x := by
  cases present with
  | false => simp_all [kindPortByte]
  | true => exact ⟨rfl, PortOperand.toByte_ofByte PaperKind.wirePair x⟩

theorem wellFormed_printInfo_iff (kind : Option (PortOperand PaperKind)) (width length : Option Byte) (recovery : Bool)
    (lowPower : Byte) :
    (Instr.cfPrintInfo kind width length recovery lowPower).WellFormed ↔
      ∀ k ∈ kind, k.check PaperKind.ofWire = [] := by
  cases kind <;> simp [Instr.WellFormed, Instr.check]

theorem readPrintInfo_write {kind : Option (PortOperand PaperKind)} (width length : Option Byte) (recovery : Bool)
    (lowPower : Byte) (h : ∀ k ∈ kind, k.check PaperKind.ofWire = []) :
    readPrintInfo (printMask kind.isSome width.isSome length.isSome recovery) (kindPortByte kind) (width.getD 0#8)
      (length.getD 0#8) lowPower = .ok (.cfPrintInfo kind width length recovery lowPower) := by
  obtain ⟨hm, hk, hw, hl, hr⟩ := printMask_bits kind.isSome width.isSome length.isSome recovery
  obtain ⟨hk0, hk1⟩ := present_kindPortByte kind h
  simp only [readPrintInfo, hm, hk, hw, hl, hr, hk0, hk1, present_getD, Bool.not_true, Bool.or_self, Bool.false_eq_true,
    if_false]

theorem write_of_readPrintInfo {mask kind width length lowPower : Byte} {i : Instr}
    (h : readPrintInfo mask kind width length lowPower = .ok i) :
    ∃ k w l r, i = .cfPrintInfo k w l r lowPower ∧ i.WellFormed ∧
      writePrintInfo k w l r lowPower = [mask, kind, width, length, lowPower] := by
  unfold readPrintInfo at h
  split at h
  · cases h
  split at h
  · cases h
  next hm h0 =>
  have hm : printMaskLegal mask = true := by simpa using hm
  simp only [Bool.or_eq_true, not_or, Bool.not_eq_true] at h0
  obtain ⟨⟨hk0, hw0⟩, hl0⟩ := h0
  obtain ⟨hk1, hk2⟩ := kindPortByte_of_absent_zero hk0
  obtain ⟨hw1, hw2⟩ := getD_of_absent_zero hw0
  obtain ⟨hl1, hl2⟩ := getD_of_absent_zero hl0
  refine ⟨_, _, _, _, (DecodeResult.ok.inj h).symm, ?_, ?_⟩
  · rw [← DecodeResult.ok.inj h, wellFormed_printInfo_iff]
    split
    · rintro _ ⟨⟩
      exact PortOperand.check_ofByte kind
    · simp
  · rw [writePrintInfo_eq, hk1, hk2, hw1, hw2, hl1, hl2, printMask_of_legal hm]

theorem readPrintInfoBytes_eq_ok_iff {bytes : List Byte} {i : Instr} :
    readPrintInfoBytes bytes = .ok i ↔
      ∃ k w l r low, i = .cfPrintInfo k w l r low ∧ i.WellFormed ∧ bytes = writePrintInfo k w l r low := by
  constructor
  · intro h
    unfold readPrintInfoBytes at h
    split at h
    · obtain ⟨k, w, l, r, hi, hwf, hb⟩ := write_of_readPrintInfo h
      exact ⟨k, w, l, r, _, hi, hwf, hb.symm⟩
    · split at h <;> cases h
  · rintro ⟨k, w, l, r, low, rfl, hwf, rfl⟩
    rw [writePrintInfo_eq]
    exact readPrintInfo_write w l r low ((wellFormed_printInfo_iff k w l r low).mp hwf)

/-! ### The relation -/

theorem checkStream_eq_nil_iff {data : List Byte} : checkStream data = [] ↔ data.length < 65536 := by
  unfold checkStream
  split <;> simp_all

/-- What the operands of an operation decode to is well formed and is encoded with those bytes. -/
theorem encode_of_decodeOperands {o : Operation} {bytes : List Byte} {i : Instr}
    (h : decodeOperands o bytes = .ok i) : i.WellFormed ∧ encode i = some (.numbered (o.opSel :: bytes)) := by
  cases o with
  | cfVoid =>
    obtain ⟨c, rfl, rfl⟩ := readCount_eq_ok_iff.mp h
    exact ⟨rfl, rfl⟩
  | cfSetMargin =>
    obtain ⟨m, rfl, rfl⟩ := readMargin_eq_ok_iff.mp h
    exact ⟨rfl, rfl⟩
  | cfSetMode =>
    obtain ⟨b, rfl, rfl⟩ := readByte_eq_ok_iff.mp h
    exact ⟨PortOperand.check_ofByte b, by rw [encode, PortOperand.toByte_ofByte ModeSet.wirePair]⟩
  | cfSetEnh =>
    obtain ⟨b, rfl, rfl⟩ := readByte_eq_ok_iff.mp h
    exact ⟨PortOperand.check_ofByte b, by rw [encode, PortOperand.toByte_ofByte EnhancedSet.wirePair]⟩
  | cfSwitchMode =>
    obtain ⟨b, rfl, rfl⟩ := readByte_eq_ok_iff.mp h
    exact ⟨PortOperand.check_ofByte b, by rw [encode, PortOperand.toByte_ofByte CommandMode.wirePair]⟩
  | cfSelComp =>
    obtain ⟨b, rfl, rfl⟩ := readByte_eq_ok_iff.mp h
    exact ⟨PortOperand.check_ofByte b, by rw [encode, PortOperand.toByte_ofByte CompressionMode.wirePair]⟩
  | cfRaster =>
    obtain ⟨comp, data, hl, rfl, rfl⟩ := readRaster_eq_ok_iff.mp h
    refine ⟨?_, by rw [encode, PortOperand.toByte_ofByte CompressionMode.wirePair]⟩
    rw [Instr.WellFormed, Instr.check, PortOperand.check_ofByte, checkStream_eq_nil_iff.mpr hl, List.append_nil]
  | cfPrintInfo =>
    obtain ⟨k, w, l, r, low, rfl, hwf, rfl⟩ := readPrintInfoBytes_eq_ok_iff.mp h
    exact ⟨hwf, rfl⟩
  | pbEncode =>
    obtain ⟨data, hl, rfl, rfl⟩ := readStream_eq_ok_iff.mp h
    exact ⟨checkStream_eq_nil_iff.mpr hl, rfl⟩
  | cfStatusReq | cfInit | cfZeroRaster | cfPrintPreCut | cfPrint | cfPrintEvac | sfParse =>
    obtain ⟨rfl, rfl⟩ := readNone_eq_ok_iff.mp h
    exact ⟨rfl, rfl⟩

theorem decode_numbered (o : Operation) (bytes : List Byte) :
    decode (.numbered (o.opSel :: bytes)) = decodeOperands o bytes := by
  simp only [decode, decodeNumbered, Operation.ofSel_opSel]

/-- An operation with one operand byte, the operand being well formed. -/
theorem decode_operandByte {α : Type} {wire : α → Byte} {ofWire : Byte → Option α} (o : Operation)
    (mk : PortOperand α → Instr) (hw : WirePair wire ofWire)
    (ho : ∀ b, decodeOperands o [b] = .ok (mk (.ofByte ofWire b))) {op : PortOperand α} (h : op.check ofWire = []) :
    decode (.numbered [o.opSel, op.toByte wire]) = .ok (mk op) := by
  rw [decode_numbered, ho, PortOperand.ofByte_toByte hw h]

/-- A well-formed operation is decoded from its request. -/
theorem decode_of_encode {i : Instr} {r : Request} (hwf : i.WellFormed) (h : encode i = some r) :
    decode r = .ok i := by
  cases i with
  | pbRecRun _ _ | pbRecLit _ _ | pbFallback => cases h
  | cfVoid c =>
    obtain rfl := Option.some.inj h
    exact (decode_numbered .cfVoid _).trans (readCount_eq_ok_iff.mpr ⟨c, rfl, rfl⟩)
  | cfSetMargin m =>
    obtain rfl := Option.some.inj h
    exact (decode_numbered .cfSetMargin _).trans (readMargin_eq_ok_iff.mpr ⟨m, rfl, rfl⟩)
  | cfSetMode op =>
    obtain rfl := Option.some.inj h
    exact decode_operandByte .cfSetMode .cfSetMode ModeSet.wirePair (fun _ => rfl) hwf
  | cfSetEnh op =>
    obtain rfl := Option.some.inj h
    exact decode_operandByte .cfSetEnh .cfSetEnh EnhancedSet.wirePair (fun _ => rfl) hwf
  | cfSwitchMode op =>
    obtain rfl := Option.some.inj h
    exact decode_operandByte .cfSwitchMode .cfSwitchMode CommandMode.wirePair (fun _ => rfl) hwf
  | cfSelComp op =>
    obtain rfl := Option.some.inj h
    exact decode_operandByte .cfSelComp .cfSelComp CompressionMode.wirePair (fun _ => rfl) hwf
  | cfRaster op line =>
    obtain rfl := Option.some.inj h
    obtain ⟨hop, hline⟩ := List.append_eq_nil_iff.mp hwf
    exact (decode_numbered .cfRaster _).trans (readRaster_eq_ok_iff.mpr
      ⟨_, line, checkStream_eq_nil_iff.mp hline, rfl,
        congrArg (Instr.cfRaster · line) (PortOperand.ofByte_toByte CompressionMode.wirePair hop)⟩)
  | cfPrintInfo k w l r low =>
    obtain rfl := Option.some.inj h
    exact (decode_numbered .cfPrintInfo _).trans
      (readPrintInfoBytes_eq_ok_iff.mpr ⟨k, w, l, r, low, rfl, hwf, rfl⟩)
  | pbEncode data =>
    obtain rfl := Option.some.inj h
    exact (decode_numbered .pbEncode _).trans
      (readStream_eq_ok_iff.mpr ⟨data, checkStream_eq_nil_iff.mp hwf, rfl, rfl⟩)
  | cfStatusReq | cfInit | cfZeroRaster | cfPrintPreCut | cfPrint | cfPrintEvac | sfParse =>
    obtain rfl := Option.some.inj h
    rfl

theorem decode_eq_ok_iff {r : Request} {i : Instr} : decode r = .ok i ↔ i.WellFormed ∧ encode i = some r := by
  refine ⟨fun h => ?_, fun h => decode_of_encode h.1 h.2⟩
  obtain ⟨bytes⟩ := r
  cases bytes with
  | nil => cases h
  | cons sel bytes =>
    simp only [decode, decodeNumbered] at h
    split at h
    · cases h
    · next o ho =>
      rw [(o.ofSel_eq_some_iff sel).mp ho]
      exact encode_of_decodeOperands h

/-- The three record rows are what no request carries (R6). -/
theorem encode_eq_none_iff (i : Instr) :
    encode i = none ↔ (∃ n v, i = .pbRecRun n v) ∨ (∃ n a, i = .pbRecLit n a) ∨ i = .pbFallback := by
  cases i <;> simp [encode]

/-- What a request carries is one of the sixteen operations (R6). -/
theorem operation_of_encode {i : Instr} {r : Request} (h : encode i = some r) :
    Machine.isCfe i = true ∨ (∃ input, i = .pbEncode input) ∨ i = .sfParse := by
  cases i <;> simp [encode, Machine.isCfe] at h ⊢

/-- Settles O1: `decode` is `encode` read from the other side. -/
theorem requestDecodesBackFromItsEncoding : Obligations.RequestDecodesBackFromItsEncoding := fun i hwf =>
  ⟨fun _ h => decode_of_encode hwf h, encode_eq_none_iff i⟩

/-- Settles O2: `encode` is `decode` read from the other side, and no record row is encoded. -/
theorem decodedRequestIsWellFormedAndUnique : Obligations.DecodedRequestIsWellFormedAndUnique := by
  intro r i h
  obtain ⟨hwf, he⟩ := decode_eq_ok_iff.mp h
  exact ⟨hwf, he, operation_of_encode he⟩

end Sys2Proof
end

section
/-! PROOFS. R87: a command frame names its operation. The frame of a well-formed operation is told from the zeros of
`CF.VOID` by its first byte and is read back by `readFrame`, whatever stands after it. -/

namespace Sys2Proof

/-- A well-formed operand that names a member is written as the member. -/
theorem PortOperand.eq_member_of_resolve {α : Type} {ofWire : Byte → Option α} {op : PortOperand α} {v : α}
    (hc : op.check ofWire = []) (h : op.resolve ofWire = some v) : op = .member v := by
  cases op with
  | member w => exact congrArg member (Option.some.inj h)
  | rawByte b =>
    have hn : ofWire b = none := ofWire_eq_none_of_check hc
    rw [resolve, hn] at h
    cases h

theorem eq_map_member_of_resolveKind {kind : Option (PortOperand PaperKind)} {k : Option PaperKind}
    (hc : ∀ op ∈ kind, op.check PaperKind.ofWire = []) (h : resolveKind kind = some k) : kind = k.map .member := by
  cases kind with
  | none => obtain rfl := Option.some.inj h; rfl
  | some op =>
    obtain ⟨v, hv, rfl⟩ := Option.map_eq_some_iff.mp h
    rw [PortOperand.eq_member_of_resolve (hc op rfl) hv]
    rfl

/-- The bytes after the frame. -/
abbrev tailZeros : List Byte := List.replicate 64 0#8

theorem readLayout_zeros {n : Nat} (h : n ≤ 64) :
    readLayout n (List.replicate n 0#8 ++ tailZeros) = some (.cfVoid (BitVec.ofNat 32 n)) :=
  if_pos ⟨List.take_left' (by simp), h⟩

/-- A frame that begins with no zero byte and that `readFrame` reads whole. -/
theorem readLayout_frame {b : Byte} {f : List Byte} {i : Instr} (hb : b ≠ 0#8)
    (h : readFrame (b :: f ++ tailZeros) = some (i, (b :: f).length)) :
    readLayout (b :: f).length (b :: f ++ tailZeros) = some i := by
  have hz : ¬ ((b :: f ++ tailZeros).take (b :: f).length = List.replicate (b :: f).length 0#8 ∧
      (b :: f).length ≤ Config.cfOutMax) := by
    rintro ⟨he, _⟩
    rw [List.take_left, List.length_cons, List.replicate_succ] at he
    exact hb (List.cons.inj he).1
  rw [readLayout, if_neg hz, h]
  exact if_pos (Nat.le_refl _)

theorem readFrame_capG {low high : Byte} : ∀ {rest : List Byte}, 5 ≤ rest.length →
    (Half.ofBytes high low).toNat ≤ 61 → (Half.ofBytes high low).toNat ≤ rest.length →
    readFrame (Wire.capG :: low :: high :: rest) =
      some (.cfRaster (.member .none) (rest.take (Half.ofBytes high low).toNat), (Half.ofBytes high low).toNat + 3)
  | _ :: _ :: _ :: _ :: _ :: _, _, hmax, hn => if_pos ⟨hmax, Nat.add_le_add_right hn 3⟩

/-- A raster frame is read by its byte count (R79). -/
theorem readFrame_raster {line : List Byte} (h : line.length ≤ 61) :
    readFrame (Wire.capG :: writeStream line ++ tailZeros) =
      some (.cfRaster (.member .none) line, (Wire.capG :: writeStream line).length) := by
  have hn := toNat_stream_length line.length (by omega)
  have hr := readFrame_capG (rest := line ++ tailZeros) (by simp) (hn ▸ h) (by rw [hn]; simp)
  rw [hn, List.take_left] at hr
  exact hr

theorem readFrame_lowC {b3 b4 b5 b6 b7 : Byte} {rest : List Byte} {i : Instr}
    (h : readPrintInfo b3 b4 b5 b6 b7 = .ok i) (hk : b3.getLsbD 1 = true → (PaperKind.ofWire b4).isSome = true) :
    readFrame (Wire.esc :: Wire.lowI :: Wire.lowC :: b3 :: b4 :: b5 :: b6 :: b7 :: rest) = some (i, 8) := by
  show (match readPrintInfo b3 b4 b5 b6 b7 with
    | .ok i => if b3.getLsbD 1 = true → (PaperKind.ofWire b4).isSome then some (i, 8) else none
    | .reject _ => none) = _
  rw [h]
  exact if_pos hk

theorem readFrame_printInfo (kind : Option PaperKind) (width length : Option Byte) (recovery : Bool)
    (lowPower : Byte) :
    readFrame ([Wire.esc, Wire.lowI, Wire.lowC, printMask kind.isSome width.isSome length.isSome recovery,
        kindByte kind, width.getD 0#8, length.getD 0#8, lowPower] ++ tailZeros) =
      some (.cfPrintInfo (kind.map .member) width length recovery lowPower, 8) := by
  have hk : kindByte kind = kindPortByte (kind.map .member) := by cases kind <;> rfl
  have hs : (kind.map PortOperand.member).isSome = kind.isSome := Option.isSome_map
  have hr := readPrintInfo_write (kind := kind.map .member) width length recovery lowPower (by simp [PortOperand.check])
  have hw : (printMask kind.isSome width.isSome length.isSome recovery).getLsbD 1 = true →
      (PaperKind.ofWire (kindByte kind)).isSome = true := by
    rw [(printMask_bits _ _ _ _).2.1]
    cases kind with
    | none => simp
    | some k => simp [kindByte]
  rw [hs, ← hk] at hr
  exact readFrame_lowC hr hw

/-- Settles O3, one command after another: the zeros of `CF.VOID`, else the frame's own first byte. -/
theorem commandFrameNamesItsOperation : Obligations.CommandFrameNamesItsOperation := by
  intro i f hi hwf hf
  cases i with
  | cfVoid count =>
    obtain rfl := Option.some.inj hf
    rw [List.length_replicate]
    exact readLayout_zeros (voidLength_le count)
  | cfStatusReq | cfInit | cfZeroRaster | cfPrintPreCut | cfPrint | cfPrintEvac =>
    obtain rfl := Option.some.inj hf
    exact readLayout_frame (by decide) rfl
  | cfSetMargin margin =>
    obtain rfl := Option.some.inj hf
    exact readLayout_frame (by decide)
      (congrArg (fun m => some (Instr.cfSetMargin m, 5)) (Half.ofBytes_high_low margin))
  | cfSetMode op =>
    obtain ⟨m, hm, rfl⟩ := Option.map_eq_some_iff.mp hf
    obtain rfl := PortOperand.eq_member_of_resolve hwf hm
    exact readLayout_frame (by decide)
      (congrArg (Option.map fun m => (Instr.cfSetMode (.member m), 4)) (ModeSet.ofWire_wire m))
  | cfSetEnh op =>
    obtain ⟨m, hm, rfl⟩ := Option.map_eq_some_iff.mp hf
    obtain rfl := PortOperand.eq_member_of_resolve hwf hm
    exact readLayout_frame (by decide)
      (congrArg (Option.map fun m => (Instr.cfSetEnh (.member m), 4)) (EnhancedSet.ofWire_wire m))
  | cfSwitchMode op =>
    obtain ⟨m, hm, rfl⟩ := Option.map_eq_some_iff.mp hf
    obtain rfl := PortOperand.eq_member_of_resolve hwf hm
    exact readLayout_frame (by decide)
      (congrArg (Option.map fun m => (Instr.cfSwitchMode (.member m), 4)) (CommandMode.ofWire_wire m))
  | cfSelComp op =>
    obtain ⟨m, hm, rfl⟩ := Option.map_eq_some_iff.mp hf
    obtain rfl := PortOperand.eq_member_of_resolve hwf hm
    exact readLayout_frame (by decide)
      (congrArg (Option.map fun m => (Instr.cfSelComp (.member m), 2)) (CompressionMode.ofWire_wire m))
  | cfRaster op line =>
    simp only [layout] at hf
    split at hf
    · next hc =>
      obtain ⟨hop, hline⟩ := hc
      obtain rfl := Option.some.inj hf
      obtain rfl := PortOperand.eq_member_of_resolve (List.append_eq_nil_iff.mp hwf).1 hop
      exact readLayout_frame (by decide) (readFrame_raster hline)
    · cases hf
  | cfPrintInfo kind width length recovery lowPower =>
    obtain ⟨k, hk, rfl⟩ := Option.map_eq_some_iff.mp hf
    have hc := (wellFormed_printInfo_iff kind width length recovery lowPower).mp hwf
    obtain rfl := eq_map_member_of_resolveKind hc hk
    exact readLayout_frame (by decide) (readFrame_printInfo k width length recovery lowPower)
  | pbEncode _ | pbRecRun _ _ | pbRecLit _ _ | pbFallback | sfParse => cases hi

end Sys2Proof
end

section
/-! PROOFS. R140, R141, R144, R148, R154, R155: what a CFE operation answers is settled by its layout alone, a frame
where there is one and InvalidArgument where there is none; each statement about one operation is then about its
layout. -/

namespace Sys2Proof

/-! ### Raw bytes outside their sets (R155) -/

theorem CommandMode.ofWire_eq_none {b : Byte} (h : b ∉ [0x00#8, 0x01#8]) : CommandMode.ofWire b = none := by
  simp only [List.mem_cons, List.not_mem_nil, or_false, not_or] at h
  rw [ofWire, if_neg h.1, if_neg h.2]

theorem CompressionMode.ofWire_eq_none {b : Byte} (h : b ∉ [0x00#8, 0x02#8]) : CompressionMode.ofWire b = .none := by
  simp only [List.mem_cons, List.not_mem_nil, or_false, not_or] at h
  rw [ofWire, if_neg h.1, if_neg h.2]

theorem PaperKind.ofWire_eq_none {b : Byte} (h : b ∉ [0x00#8, 0x01#8, 0x02#8, 0x03#8, 0x09#8, 0x10#8]) :
    PaperKind.ofWire b = none := by
  simp only [List.mem_cons, List.not_mem_nil, or_false, not_or] at h
  obtain ⟨h0, h1, h2, h3, h9, h10⟩ := h
  rw [ofWire, if_neg h0, if_neg h1, if_neg h2, if_neg h3, if_neg h9, if_neg h10]

/-- A byte with a bit of the mask set is not 0 under the mask. -/
theorem and_ne_zero_of_getLsbD {b mask : Byte} {k : Nat} (hb : b.getLsbD k = true) (hm : mask.getLsbD k = true) :
    b &&& mask ≠ 0#8 := by
  intro h
  have hk := congrArg (BitVec.getLsbD · k) h
  simp only [BitVec.getLsbD_and, hb, hm, BitVec.getLsbD_zero] at hk
  cases hk

theorem ModeSet.ofWire_eq_none {b : Byte} {k : Nat} (hk : k < 6) (hb : b.getLsbD k = true) :
    ModeSet.ofWire b = none := by
  have hm : ∀ k < 6, (0x3F#8).getLsbD k = true := by decide
  exact if_neg (and_ne_zero_of_getLsbD hb (hm k hk))

theorem EnhancedSet.ofWire_eq_none {b : Byte}
    (h : b.getLsbD 0 = true ∨ b.getLsbD 1 = true ∨ b.getLsbD 4 = true) : EnhancedSet.ofWire b = none := by
  refine if_neg ?_
  rcases h with h | h | h <;> exact and_ne_zero_of_getLsbD h (by decide)

/-! ### Layouts -/

theorem layout_raster {line : List Byte} (h : line.length ≤ 61) :
    layout (.cfRaster (.member .none) line) =
      some (0x47#8 :: BitVec.ofNat 8 line.length :: 0x00#8 :: line) := by
  have hl : Half.low (BitVec.ofNat 16 line.length) = BitVec.ofNat 8 line.length := by
    apply BitVec.eq_of_toNat_eq
    simp [Half.low]
  have hh : Half.high (BitVec.ofNat 16 line.length) = 0x00#8 := by
    apply BitVec.eq_of_toNat_eq
    simp [Half.high, Nat.shiftRight_eq_div_pow]
    omega
  refine (if_pos ⟨rfl, h⟩).trans ?_
  simp only [writeStream, hl, hh]
  rfl

theorem layout_raster_long {comp : PortOperand CompressionMode} {line : List Byte} (h : 61 < line.length) :
    layout (.cfRaster comp line) = none :=
  if_neg fun hc => absurd hc.2 (Nat.not_le.mpr h)

theorem layout_raster_not_none {comp : PortOperand CompressionMode} (line : List Byte)
    (h : comp.resolve CompressionMode.ofWire ≠ some .none) : layout (.cfRaster comp line) = none :=
  if_neg fun hc => h hc.1

end Sys2Proof

namespace Sys2Proof.Machine

/-! ### The two answers -/

theorem FrameAnswer.of_deliverCfi {s t : State} {line frame cfi : List Byte}
    (h : FrameAnswer (s.deliverCfi line) t frame cfi) : FrameAnswer s t frame cfi :=
  ⟨h.valid, h.err, h.len, h.bytes, h.response, h.cfi, h.errors,
    ⟨h.others.pbe, h.others.sfd, h.others.inbox, h.others.emission, h.others.draws⟩⟩

theorem InvalidAnswer.of_deliverCfi {s t : State} {line cfi : List Byte}
    (h : InvalidAnswer (s.deliverCfi line) t cfi) : InvalidAnswer s t cfi :=
  ⟨h.valid, h.err, h.len, h.response, h.cfi, h.errors,
    ⟨h.others.pbe, h.others.sfd, h.others.inbox, h.others.emission, h.others.draws⟩⟩

theorem exec_cfe_frame {i : Instr} {f : List Byte} (s : State) (hi : isCfe i = true) (hf : layout i = some f) :
    ∃ t, exec i s = .next t ∧ FrameAnswer s t f (cfiAfter i s) := by
  rw [exec_cfe i s hi, hf]
  exact ⟨_, rfl, ((s.deliverCfi (cfiAfter i s)).answerFrame_spec f).of_deliverCfi⟩

theorem exec_cfe_invalid {i : Instr} (s : State) (hi : isCfe i = true) (hf : layout i = none) :
    ∃ t, exec i s = .next t ∧ InvalidAnswer s t (cfiAfter i s) := by
  rw [exec_cfe i s hi, hf]
  exact ⟨_, rfl, (s.deliverCfi (cfiAfter i s)).answerInvalid_spec.of_deliverCfi⟩

/-- The two ways a CFE operation ends. -/
theorem exec_cfe_answer (i : Instr) (s : State) (hi : isCfe i = true) :
    ∃ t, exec i s = .next t ∧ ((∃ f, layout i = some f ∧ FrameAnswer s t f (cfiAfter i s)) ∨
      (layout i = none ∧ InvalidAnswer s t (cfiAfter i s))) := by
  cases hf : layout i with
  | some f =>
    obtain ⟨t, ht, ha⟩ := exec_cfe_frame s hi hf
    exact ⟨t, ht, .inl ⟨f, rfl, ha⟩⟩
  | none =>
    obtain ⟨t, ht, ha⟩ := exec_cfe_invalid s hi hf
    exact ⟨t, ht, .inr ⟨rfl, ha⟩⟩

/-- Two operations with one layout that leave the same in CFI do the same. -/
theorem exec_cfe_eq_of_layout {i j : Instr} (s : State) (hi : isCfe i = true) (hj : isCfe j = true)
    (hl : layout i = layout j) (hc : cfiAfter i s = cfiAfter j s) : exec i s = exec j s := by
  rw [exec_cfe i s hi, exec_cfe j s hj, hl, hc]

theorem cfiAfter_of_not_raster {i : Instr} (s : State) (h : ∀ comp line, i ≠ .cfRaster comp line) :
    cfiAfter i s = s.cfe.cfi := by
  cases i with
  | cfRaster comp line => exact absurd rfl (h comp line)
  | _ => rfl

/-! ### The statements -/

/-- Settles O24: the frame is the layout, and CFI is `cfiAfter`. -/
theorem everyCommandDeliversItsTableLayout : Obligations.EveryCommandDeliversItsTableLayout := by
  intro i f s hi hf
  obtain ⟨t, ht, ha⟩ := exec_cfe_frame s hi hf
  have hc := ha.cfi
  refine ⟨t, ht, hc ▸ ha, ?_, fun hr => hc.trans (cfiAfter_of_not_raster s hr)⟩
  rintro comp line rfl
  exact hc

/-- Settles O25: both runs end with the one layout, or both with InvalidArgument. -/
theorem commandResponseDependsOnOperandsAlone : Obligations.CommandResponseDependsOnOperandsAlone := by
  intro i s s' hi
  cases hf : layout i with
  | some f =>
    obtain ⟨t, ht, ha⟩ := exec_cfe_frame s hi hf
    obtain ⟨t', ht', ha'⟩ := exec_cfe_frame s' hi hf
    refine ⟨t, t', ht, ht', ha.len ▸ layout_length_le i f hi hf, ?_, ?_, ?_, ?_⟩
    · rw [ha.response, ha'.response]
    · rw [ha.len, ha'.len]
    · rw [ha.err, ha'.err]
    · rw [ha.valid, ha'.valid]
  | none =>
    obtain ⟨t, ht, ha⟩ := exec_cfe_invalid s hi hf
    obtain ⟨t', ht', ha'⟩ := exec_cfe_invalid s' hi hf
    refine ⟨t, t', ht, ht', by rw [ha.len]; omega, ?_, ?_, ?_, ?_⟩
    · rw [ha.response, ha'.response]
    · rw [ha.len, ha'.len]
    · rw [ha.err, ha'.err]
    · rw [ha.valid, ha'.valid]

/-- Settles O12: a CFE response depends on the operands alone, and the response of `PB.ENCODE` on its input. -/
theorem resetIsUnobservableThroughOperations : Obligations.ResetIsUnobservableThroughOperations := by
  intro i s t t' h h'
  refine ⟨fun hi => ?_, ?_⟩
  · obtain ⟨u, u', hu, hu', _, hr, _, he, _⟩ := commandResponseDependsOnOperandsAlone i s s.applyReset hi
    obtain rfl := Host.Outcome.next.inj (h.symm.trans hu)
    obtain rfl := Host.Outcome.next.inj (h'.symm.trans hu')
    exact ⟨hr, he⟩
  · rintro input rfl
    obtain ⟨u, u', hu, hu', hr, _, he⟩ := encodeDependsOnTheNormalisedLineAlone input input s s.applyReset rfl
    obtain rfl := Host.Outcome.next.inj (h.symm.trans hu)
    obtain rfl := Host.Outcome.next.inj (h'.symm.trans hu')
    exact ⟨hr, he⟩

theorem cfVoid_delivers (count : BitVec 32) (s : State) :
    Delivers (.cfVoid count) s (List.replicate (max 0 (min 64 count.toInt)).toNat 0x00#8) :=
  delivers_of_answerFrame _ _ _ rfl

/-- Settles O14: the clamp at both of its ends. -/
theorem voidDeliversTheClampedCountOfZeros : Obligations.VoidDeliversTheClampedCountOfZeros := by
  intro count s
  have h := cfVoid_delivers count s
  refine ⟨h, fun h0 => ?_, fun h64 => ?_⟩
  · rwa [show (max 0 (min 64 count.toInt)).toNat = 0 by omega] at h
  · rwa [show (max 0 (min 64 count.toInt)).toNat = 64 by omega] at h

/-- Settles O15: the byte is the set's wire value. -/
theorem setModeDeliversTheModeBits : Obligations.SetModeDeliversTheModeBits := fun _ _ _ =>
  delivers_of_answerFrame _ _ _ rfl

/-- Settles O20: the layout of `CF.RASTER` for a short line, and none for a long line or TIFF. -/
theorem rasterFramesUncompressedLinesUpTo61Bytes : Obligations.RasterFramesUncompressedLinesUpTo61Bytes := fun line s =>
  ⟨fun h => exec_cfe_frame s rfl (layout_raster h), fun h => exec_cfe_invalid s rfl (layout_raster_long h),
    exec_cfe_invalid s rfl (layout_raster_not_none line (by simp [PortOperand.resolve]))⟩

/-- Settles O21, for an absent kind and for each PaperKind. -/
theorem printInfoDeliversMaskAndFields : Obligations.PrintInfoDeliversMaskAndFields := by
  intro kind width length recovery lowPower s
  cases kind with
  | none => exact delivers_of_answerFrame _ _ _ rfl
  | some k => cases k <;> exact delivers_of_answerFrame _ _ _ rfl

/-- Settles O22: an operand byte outside its set leaves the operation without a layout. -/
theorem rawOperandOutsideItsSetIsInvalid : Obligations.RawOperandOutsideItsSetIsInvalid := by
  intro b s
  refine ⟨fun h => ?_, fun h => ⟨?_, fun line => ?_⟩, fun h width length recovery lowPower => ?_, ?_, fun h => ?_⟩
  · exact exec_cfe_invalid s rfl (Option.map_eq_none_iff.mpr (CommandMode.ofWire_eq_none h))
  · exact exec_cfe_invalid s rfl (Option.map_eq_none_iff.mpr (CompressionMode.ofWire_eq_none h))
  · refine exec_cfe_invalid s rfl (layout_raster_not_none line ?_)
    rw [PortOperand.resolve, CompressionMode.ofWire_eq_none h]
    simp
  · refine exec_cfe_invalid s rfl (Option.map_eq_none_iff.mpr (Option.map_eq_none_iff.mpr ?_))
    exact PaperKind.ofWire_eq_none h
  · rintro ⟨k, hk, hb⟩
    exact exec_cfe_invalid s rfl (Option.map_eq_none_iff.mpr (ModeSet.ofWire_eq_none hk hb))
  · exact exec_cfe_invalid s rfl (Option.map_eq_none_iff.mpr (EnhancedSet.ofWire_eq_none h))

/-- Settles O23: the raw byte of a member resolves to the member, so the two requests have one layout. -/
theorem rawOperandInsideItsSetIsTheMember : Obligations.RawOperandInsideItsSetIsTheMember := by
  refine fun s => ⟨fun m => ?_, fun m => ⟨?_, fun line => ?_⟩, fun k width length recovery lowPower => ?_,
    fun m => ?_, fun e => ?_⟩ <;> refine exec_cfe_eq_of_layout s rfl rfl ?_ rfl <;>
    simp [layout, resolveKind, PortOperand.resolve]

/-- Settles O52: an answer with a frame has no error, and InvalidArgument adds one; a failed parse adds one, and an
accepted frame none. -/
theorem zeroErrorCodeMeansValidResponse : Obligations.ZeroErrorCodeMeansValidResponse := by
  refine ⟨fun i s t hi h => ?_, fun s t h => ?_⟩
  · obtain ⟨u, hu, ha⟩ := exec_cfe_answer i s hi
    obtain rfl := Host.Outcome.next.inj (h.symm.trans hu)
    rcases ha with ⟨f, _, ha⟩ | ⟨_, ha⟩
    · simp [ha.valid, ha.err, ha.errors]
    · simp [ha.valid, ha.err, ha.errors]
  · obtain ⟨hw, ⟨e, he, rfl⟩ | ⟨f, _, _, _, rfl⟩⟩ := exec_sfParse_next s t h
    · have hf := State.rejectFrame_failed s e hw.cur he
      have hc : (s.sfdEntry.rejectFrame e).sfd.err ≠ 0#2 := by
        cases e with
        | invalidArgument => exact absurd rfl he
        | formatError kind j x a => exact (by decide : (2#2 : BitVec 2) ≠ 0#2)
        | bufferUnderflow => exact (by decide : (3#2 : BitVec 2) ≠ 0#2)
      simp [hf.valid, hf.errors, hc]
    · simp

end Sys2Proof.Machine
end

section
/-! PROOFS. R172 to R184: `SF.PARSE`. A frame that has been written is read whole; the header decides between the
success and one FormatError; each statement is then about the two results `acceptFrame` and `rejectFrame`. -/

namespace Sys2Proof

theorem Half.ofBytes_eq_ofNat (high low : Byte) :
    Half.ofBytes high low = BitVec.ofNat 16 (high.toNat * 256 + low.toNat) := by
  apply BitVec.eq_of_toNat_eq
  have := high.isLt
  have := low.isLt
  rw [Half.toNat_ofBytes, BitVec.toNat_ofNat, Nat.mod_eq_of_lt (by omega)]

end Sys2Proof

namespace Sys2Proof.Machine

/-! ### The errorInfo register (R28, R89, R178) -/

/-- A bit of SF_EI is the bit of byte 8 or byte 9 under the mask. -/
theorem getLsbD_errorInfo (low high : Byte) (k : Nat) :
    (errorInfo low high).getLsbD k =
      ((if k < 8 then low.getLsbD k else high.getLsbD (k - 8)) && errorInfoMask.getLsbD k) := by
  rw [errorInfo, BitVec.getLsbD_and, Half.ofBytes, BitVec.getLsbD_append]

/-- The mask acts on each byte by itself. -/
theorem errorInfo_eq_ofBytes (low high : Byte) :
    errorInfo low high = Half.ofBytes (high &&& 0xDF#8) (low &&& 0x5F#8) := by
  have hm : errorInfoMask = Half.ofBytes 0xDF#8 0x5F#8 := by decide
  apply BitVec.eq_of_getLsbD_eq
  intro k _
  rw [getLsbD_errorInfo, hm]
  simp only [Half.ofBytes, BitVec.getLsbD_append, BitVec.getLsbD_and]
  split <;> rfl

/-- Bytes that agree under the two halves of the mask give one SF_EI. -/
theorem errorInfo_congr {low low' high high' : Byte} (hl : low &&& 0x5F#8 = low' &&& 0x5F#8)
    (hh : high &&& 0xDF#8 = high' &&& 0xDF#8) : errorInfo low high = errorInfo low' high' := by
  rw [errorInfo_eq_ofBytes, errorInfo_eq_ofBytes, hl, hh]

/-- Settles O48: the mask has the bit of every named flag and not the three unused ones. -/
theorem errorInfoKeepsNamedBitsAndDropsUnused : Obligations.ErrorInfoKeepsNamedBitsAndDropsUnused := by
  refine fun low high => ⟨fun f => ?_, ?_, ?_, ?_⟩
  · have hm : errorInfoMask.getLsbD f.bit = true := by cases f <;> rfl
    rw [ErrorFlag.output, getLsbD_errorInfo, hm, Bool.and_true]
  all_goals
    rw [getLsbD_errorInfo]
    exact Bool.and_false _

/-! ### The header (R173 to R176) -/

/-- The kind of the FormatError for a header byte (R173 to R175). -/
def headerKind (j : Nat) : FormatKind :=
  if j = 0 then .missingHeaderMarker else if j = 1 then .invalidSize else .invalidValue

theorem headerChecks_getElem? : ∀ j, j < 7 → headerChecks[j]? = some (headerKind j, magic j) := by decide

theorem firstMismatch_take (o : Nat) (checks : List (FormatKind × Byte)) (f : List Byte) :
    firstMismatch o checks (f.take checks.length) = firstMismatch o checks f := by
  induction checks generalizing o f with
  | nil => simp [firstMismatch]
  | cons c checks ih =>
    cases f with
    | nil => rfl
    | cons a f => simp only [List.length_cons, List.take_succ_cons, firstMismatch, ih]

/-- The 32 bytes of a frame. -/
abbrev frameBytes (f : Nat → Byte) : List Byte := (List.range 32).map f

theorem frameBytes_getElem? (f : Nat → Byte) {k : Nat} (h : k < 32) : (frameBytes f)[k]? = some (f k) := by
  simp [h]

/-- The mismatch reported is the first one, with its kind and its bytes. -/
theorem firstMismatch_eq_some {f : Nat → Byte} {e : CodecError}
    (h : firstMismatch 0 headerChecks (frameBytes f) = some e) :
    ∃ j, j < 7 ∧ e = .formatError (headerKind j) j (magic j) (f j) ∧ f j ≠ magic j ∧ ∀ k, k < j → f k = magic k := by
  obtain ⟨kind, j, x, a, rfl, _, hj, hc, ha, hne, hlow⟩ := firstMismatch_isFormat _ _ _ _ h
  have hj7 : j < 7 := by simpa [headerChecks] using hj
  rw [Nat.sub_zero] at hc ha hlow
  rw [headerChecks_getElem? j hj7] at hc
  rw [frameBytes_getElem? f (by omega)] at ha
  obtain ⟨rfl, rfl⟩ := Prod.mk.inj (Option.some.inj hc)
  obtain rfl := Option.some.inj ha
  refine ⟨j, hj7, rfl, hne, fun k hk => ?_⟩
  have hk := hlow k hk
  rw [headerChecks_getElem? k (by omega), frameBytes_getElem? f (by omega)] at hk
  exact (Option.some.inj hk).symm

theorem firstMismatch_eq_none {f : Nat → Byte} (h : firstMismatch 0 headerChecks (frameBytes f) = none) :
    ∀ k, k < 7 → f k = magic k := by
  intro k hk
  have := firstMismatch_none 0 headerChecks (frameBytes f) (by simp [headerChecks]) h k hk
  rw [headerChecks_getElem? k hk, frameBytes_getElem? f (by omega)] at this
  exact (Option.some.inj this).symm

theorem firstMismatch_congr {f g : Nat → Byte} (h : ∀ k, k < 7 → f k = g k) :
    firstMismatch 0 headerChecks (frameBytes f) = firstMismatch 0 headerChecks (frameBytes g) := by
  have ht : (frameBytes f).take headerChecks.length = (frameBytes g).take headerChecks.length := by
    rw [← List.map_take, ← List.map_take]
    exact List.map_congr_left fun k hk => h k (by simpa [headerChecks] using hk)
  rw [← firstMismatch_take, ht, firstMismatch_take]

/-! ### A written frame -/

theorem State.FrameAt.readRange {s : State} {f : Nat → Byte} (h : s.FrameAt f) :
    Memory.readRange s.sfd.sib s.sfd.cur 32 = .ok (frameBytes f) :=
  Memory.readRange_of_read _ _ _ f h.bytes

/-- What `SF.PARSE` does where the frame has been written: the header decides. -/
theorem State.FrameAt.exec_cases {s : State} {f : Nat → Byte} (h : s.FrameAt f) :
    (∃ e, firstMismatch 0 headerChecks (frameBytes f) = some e ∧
      exec .sfParse s = .next (s.sfdEntry.rejectFrame e)) ∨
    (firstMismatch 0 headerChecks (frameBytes f) = none ∧
      exec .sfParse s = .next (s.sfdEntry.acceptFrame (frameBytes f))) := by
  have hcur := h.window.cur
  have hlim := h.window.lim
  have hav := h.avail
  have hread := h.readRange
  rcases execSfParse_cases s with ⟨hw, _⟩ | ⟨_, hu, _⟩ | ⟨_, _, ⟨k, hk, _⟩ | ⟨fs, hfs, hx⟩⟩
  · omega
  · omega
  · rw [hread] at hk
    cases hk
  · obtain rfl := Except.ok.inj (hread.symm.trans hfs)
    exact hx

theorem State.FrameAt.exec_accept {s : State} {f : Nat → Byte} (h : s.FrameAt f) (hm : ∀ k, k < 7 → f k = magic k) :
    exec .sfParse s = .next (s.sfdEntry.acceptFrame (frameBytes f)) := by
  rcases h.exec_cases with ⟨e, he, _⟩ | ⟨_, hx⟩
  · obtain ⟨j, hj, _, hne, _⟩ := firstMismatch_eq_some he
    exact absurd (hm j hj) hne
  · exact hx

theorem State.FrameAt.exec_reject {s : State} {f : Nat → Byte} {j : Nat} (h : s.FrameAt f) (hj : j < 7)
    (hlow : ∀ k, k < j → f k = magic k) (hne : f j ≠ magic j) :
    exec .sfParse s = .next (s.sfdEntry.rejectFrame (.formatError (headerKind j) j (magic j) (f j))) := by
  rcases h.exec_cases with ⟨e, he, hx⟩ | ⟨hn, _⟩
  · obtain ⟨i, hi, rfl, hne', hlow'⟩ := firstMismatch_eq_some he
    obtain rfl : i = j := by
      rcases Nat.lt_trichotomy i j with hlt | heq | hgt
      · exact absurd (hlow i hlt) hne'
      · exact heq
      · exact absurd (hlow' j hgt) hne
    exact hx
  · exact absurd (firstMismatch_eq_none hn j hj) hne

/-- The fields of a frame are where R177, R178 and R181 say. -/
theorem extract_frameBytes (f : Nat → Byte) :
    extract (frameBytes f) =
      { eec := f 7, ei := errorInfo (f 8) (f 9), mw := f 10, mt := f 11, ml := f 17, st := f 18, pt := f 19,
        pn := Half.ofBytes (f 20) (f 21) } := rfl

theorem extract_holds (f : Nat → Byte) : (extract (frameBytes f)).Holds f := by
  rw [extract_frameBytes]
  exact ⟨rfl, congrArg (· &&& errorInfoMask) (Half.ofBytes_eq_ofNat _ _), rfl, rfl, rfl, rfl, rfl,
    Half.toNat_ofBytes _ _⟩

/-! ### The statements -/

/-- Settles O40: the success, with the fields of the frame. -/
theorem parseExtractsTheFields : Obligations.ParseExtractsTheFields := by
  intro s f h hm
  obtain ⟨h1, h2, h3, h4, h5, h6, h7, h8⟩ := extract_holds f
  exact ⟨_, h.exec_accept hm, rfl, h1, h2, h3, h4, h5, h6, h7, h8, rfl, rfl, rfl, rfl, rfl, rfl, rfl, rfl,
    ⟨rfl, rfl, rfl, rfl, rfl, rfl⟩⟩

/-- Settles O41: the window is checked before any byte is read. -/
theorem shortInputIsBufferUnderflow : Obligations.ShortInputIsBufferUnderflow := by
  intro s hw hu
  have hcur := hw.cur
  have hlim := hw.lim
  rcases execSfParse_cases s with ⟨hb, _⟩ | ⟨_, _, hx⟩ | ⟨_, ha, _⟩
  · omega
  · exact ⟨_, hx, rfl, rfl, rfl, rfl, rfl, s.rejectFrame_failed _ hcur (by simp)⟩
  · omega

/-- Settles O42: the first byte that differs from the magic. -/
theorem firstWrongHeaderByteIsFormatError : Obligations.FirstWrongHeaderByteIsFormatError := by
  intro s f j h hj hlow hne
  refine ⟨_, headerKind j, h.exec_reject hj hlow hne, rfl, rfl, ?_, ?_, rfl, rfl,
    s.rejectFrame_failed _ h.window.cur (by simp)⟩
  · show (headerKind j).code = _
    unfold headerKind
    split
    · rfl
    · split <;> rfl
  · show (BitVec.ofNat 3 j).toNat = j
    rw [BitVec.toNat_ofNat]
    omega

/-- Settles O43: a parse that leaves SF_VALID 0 has failed. -/
theorem failedParseKeepsFieldsAndBoundsTheCursor : Obligations.FailedParseKeepsFieldsAndBoundsTheCursor := by
  intro s t h hv
  obtain ⟨hw, ⟨e, he, rfl⟩ | ⟨f, _, _, _, rfl⟩⟩ := exec_sfParse_next s t h
  · have hf := s.rejectFrame_failed e hw.cur he
    refine ⟨hf.frame, hf.curLow, hf.curTop, ?_⟩
    rw [hf.others.lim]
    exact Nat.le_trans hf.curTop (Nat.min_le_right _ _)
  · cases hv

/-- Settles O44: the window is checked first. -/
theorem parseRefusesABrokenWindow : Obligations.ParseRefusesABrokenWindow := fun _ h => if_pos h

/-- A range stops at its first byte without a value. -/
theorem Memory.readRange_eq_error {m : Memory} {a n j : Nat} (hj : j < n)
    (hlow : ∀ k, k < j → (Memory.read m (a + k)).isSome = true) (hnone : Memory.read m (a + j) = none) :
    Memory.readRange m a n = .error (a + j) := by
  induction n generalizing a j with
  | zero => cases hj
  | succ n ih =>
    cases j with
    | zero =>
      rw [Nat.add_zero] at hnone
      simp only [readRange, hnone, Nat.add_zero]
    | succ j =>
      obtain ⟨b, hb⟩ := Option.isSome_iff_exists.mp (hlow 0 (Nat.succ_pos j))
      rw [Nat.add_zero] at hb
      have hr := ih (a := a + 1) (Nat.lt_of_succ_lt_succ hj)
        (fun k hk => by rw [Nat.add_assoc, Nat.add_comm 1]; exact hlow (k + 1) (Nat.succ_lt_succ hk))
        (by rw [Nat.add_assoc, Nat.add_comm 1]; exact hnone)
      simp only [readRange, hb, hr]
      rw [Nat.add_assoc, Nat.add_comm 1]

/-- Settles O45: the range read is the frame, and it stops at its first byte without a value. -/
theorem parseFaultsOnAnUnwrittenByte : Obligations.ParseFaultsOnAnUnwrittenByte := by
  intro s j hw ha hj hlow hnone
  have hcur := hw.cur
  have hlim := hw.lim
  have hread := Memory.readRange_eq_error hj hlow hnone
  rcases execSfParse_cases s with ⟨hb, _⟩ | ⟨_, hu, _⟩ | ⟨_, _, ⟨k, hk, hx⟩ | ⟨f, hf, _⟩⟩
  · omega
  · omega
  · obtain rfl := Except.error.inj (hread.symm.trans hk)
    exact hx
  · rw [hread] at hf
    cases hf

/-- Settles O10: a CFE operation answers, `PB.ENCODE` answers, and `SF.PARSE` reads no byte without a value. -/
theorem everyRequestGetsAResponse : Obligations.EveryRequestGetsAResponse := by
  refine ⟨fun i s hi => ⟨_, exec_cfe i s hi⟩, fun input s => ⟨_, exec_pbEncode input s⟩, fun s hw hb => ?_⟩
  have hcur := hw.cur
  have hlim := hw.lim
  rcases execSfParse_cases s with ⟨hb, _⟩ | ⟨_, _, hx⟩ | ⟨_, ha, ⟨k, hk, _⟩ | ⟨f, _, ⟨e, _, hx⟩ | ⟨_, hx⟩⟩⟩
  · omega
  · exact ⟨_, hx⟩
  · obtain ⟨h1, h2, h3⟩ := Memory.readRange_error _ _ _ _ hk
    have := hb k h1 (by omega)
    rw [h3] at this
    cases this
  · exact ⟨_, hx⟩
  · exact ⟨_, hx⟩

/-- SFD with another SIB. -/
def State.withSib (s : State) (sib : Memory) : State := { s with sfd := { s.sfd with sib := sib } }

theorem State.rejectFrame_withSib (s : State) (sib : Memory) (e : CodecError) :
    ((s.withSib sib).sfdEntry.rejectFrame e).sfd = { (s.sfdEntry.rejectFrame e).sfd with sib := sib } := by
  cases e <;> rfl

theorem State.sfdEntry_sfd_withSib {s s' : State} (hc : s'.sfd.cur = s.sfd.cur) (hl : s'.sfd.lim = s.sfd.lim)
    (hf : s'.sfd.frame = s.sfd.frame) : s'.sfdEntry.sfd = (s.withSib s'.sfd.sib).sfdEntry.sfd := by
  simp only [sfdEntry, withSib, hc, hl, hf]

/-- Settles O46: the two headers are one and the two frames have the same fields. -/
theorem reservedBytesAndBitsHaveNoEffect : Obligations.ReservedBytesAndBitsHaveNoEffect := by
  intro s s' f g h h' hc hl hfr hd hfg h8 h9
  have hentry := State.sfdEntry_sfd_withSib hc hl hfr
  have hhead : firstMismatch 0 headerChecks (frameBytes f) = firstMismatch 0 headerChecks (frameBytes g) :=
    firstMismatch_congr fun k hk => hfg k (by omega) (by omega) (by omega) (by omega) (by omega)
  have hext : extract (frameBytes f) = extract (frameBytes g) := by
    rw [extract_frameBytes, extract_frameBytes, errorInfo_congr h8 h9, hfg 7, hfg 10, hfg 11, hfg 17, hfg 18, hfg 19,
      hfg 20, hfg 21] <;> omega
  rcases h.exec_cases with ⟨e, he, hx⟩ | ⟨hn, hx⟩ <;> rcases h'.exec_cases with ⟨e', he', hx'⟩ | ⟨hn', hx'⟩
  · obtain rfl : e = e' := Option.some.inj (he.symm.trans (hhead.trans he'))
    refine ⟨_, _, hx, hx', ?_⟩
    rw [State.rejectFrame_sfd_congr e hentry hd]
    exact s.rejectFrame_withSib _ e
  · rw [hhead, hn'] at he
    cases he
  · rw [hhead, he'] at hn
    cases hn
  · refine ⟨_, _, hx, hx', ?_⟩
    rw [State.acceptFrame_sfd_congr _ hentry]
    simp only [State.acceptFrame, hext]
    rfl

end Sys2Proof.Machine
end

section
/-! PROOFS. R32, R56, R58, R207, R220: the ways one step goes, as equations, and the host's accesses. -/

namespace Sys2Proof.Machine

/-! ### The step -/

theorem step_idle {s : State} (he : s.emission = none) (hi : s.inbox = []) : step s = .next s := by
  simp only [step, State.fetch, he, hi]

theorem step_emission {s : State} {e : Emission} (he : s.emission = some e) :
    step s = exec e.toInstr { s with emission := none } := by
  simp only [step, he]

theorem step_action {s : State} {a : HostAction} {rest : List HostAction} (he : s.emission = none)
    (hi : s.inbox = a :: rest) : step s = State.answer { s with inbox := rest } a := by
  simp only [step, State.fetch, he, hi]

theorem step_request {s : State} {r : Request} {rest : List HostAction} {i : Instr} (he : s.emission = none)
    (hi : s.inbox = .request r :: rest) (hd : decode r = .ok i) : step s = exec i { s with inbox := rest } := by
  rw [step_action he hi]
  simp only [State.answer, hd]

theorem step_access {s : State} {x : HostAccess} {rest : List HostAction} (he : s.emission = none)
    (hi : s.inbox = .access x :: rest) : step s = State.host { s with inbox := rest } x :=
  step_action he hi

/-- Settles O8: with an empty inbox a step is idle. -/
theorem idleBlockKeepsItsState : Obligations.IdleBlockKeepsItsState := fun _ => step_idle

/-- Settles O7, by the two equations of the step. -/
theorem stepRunsTheDecodedRequest : Obligations.StepRunsTheDecodedRequest :=
  ⟨fun _ _ _ _ => step_request, fun _ _ => step_emission⟩

/-- Settles O6: the selector of every operation is in R95's table. -/
theorem unknownSelectorIsRefused : Obligations.UnknownSelectorIsRefused := by
  intro s sel operands rest hsel he hi
  have hn : Operation.ofSel sel = none := by
    cases ho : Operation.ofSel sel with
    | none => rfl
    | some o =>
      rw [(o.ofSel_eq_some_iff sel).mp ho] at hsel
      exact absurd (by cases o <;> decide) hsel
  rw [step_action he hi]
  simp only [State.answer, decode, decodeNumbered, hn, refusalOf]

/-! ### The host's accesses -/

/-- Settles O56: each of the two accesses sets its register. -/
theorem hostSetsCurAndLimAlone : Obligations.HostSetsCurAndLimAlone := fun _ _ _ he =>
  ⟨fun hi => step_access he hi, fun hi => step_access he hi⟩

/-- Settles O55: the write inside SIB, and the fault outside it. -/
theorem hostWritesReachSibOnly : Obligations.HostWritesReachSibOnly := by
  intro s start data rest he hi
  have hs := step_access he hi
  refine ⟨fun hfit => ?_, fun hout => hs.trans (if_neg (Nat.not_le.mpr hout))⟩
  exact ⟨_, hs.trans (if_pos hfit), Memory.read_writeAll data s.sfd.sib start, rfl⟩

/-- Settles O11, register by register. -/
theorem resetPutsEveryRegisterAtItsResetValue : Obligations.ResetPutsEveryRegisterAtItsResetValue := by
  intro s rest he hi
  have hline : ∀ k, k < 48 → lineByte Pbe.reset.line k = 0#8 := by decide
  exact ⟨_, step_access he hi, rfl, rfl, rfl, rfl, rfl, rfl, hline, Memory.read_nil, rfl, rfl, rfl, Memory.read_nil,
    rfl, rfl, rfl, rfl, rfl, rfl, rfl, rfl, Memory.read_nil, rfl, rfl, rfl⟩

/-- A listed address holds a byte. -/
theorem Memory.exists_read_of_mem {m : Memory} {a : Nat} (h : a ∈ m.map Prod.fst) : ∃ b, Memory.read m a = some b := by
  induction m with
  | nil => cases h
  | cons c m ih =>
    obtain ⟨k, b⟩ := c
    by_cases hk : a = k
    · exact ⟨b, if_pos hk⟩
    · obtain ⟨b', hb'⟩ := ih ((List.mem_cons.mp h).resolve_left hk)
      exact ⟨b', (if_neg hk).trans hb'⟩

section
variable {space : Space} {size len k : Nat} {valid : Bool} {m : Memory}

/-- A byte of a valid response is read. -/
theorem readOutput_ok (hm : m.map Prod.fst = List.range len) (hl : len ≤ size) (hv : valid = true) (hk : k < len) :
    ∃ b, readOutput space size valid m len k = .ok b := by
  obtain ⟨b, hb⟩ := Memory.exists_read_of_mem (hm ▸ List.mem_range.mpr hk)
  have hn : ¬ (valid = false ∨ len ≤ k) := by simp [hv, hk]
  exact ⟨b, by rw [readOutput, if_neg (by omega), if_neg hn, hb]⟩

theorem readOutput_unspecified (hk : k < size) (h : valid = false ∨ len ≤ k) :
    readOutput space size valid m len k = .error (.unspecifiedByte space k) := by
  rw [readOutput, if_neg (Nat.not_le.mpr hk), if_pos h]

theorem readOutput_outOfSpace (hk : size ≤ k) :
    readOutput space size valid m len k = .error (.outOfSpace space k) := if_pos hk

end

theorem State.observe_ok {α : Type} {s : State} {x : Except Fault α} (h : ∃ b, x = .ok b) : s.observe x = .next s := by
  obtain ⟨b, rfl⟩ := h
  rfl

theorem State.observe_error {α : Type} {s : State} {x : Except Fault α} {f : Fault} (h : x = .error f) :
    s.observe x = .fault f := by
  rw [h]
  rfl

/-- Settles O57: a response that is valid lists its bytes (the premise `Inv`), so that its bytes are read; every other
read is one of the faults. -/
theorem hostReadsOnlyTheResponse : Obligations.HostReadsOnlyTheResponse := by
  intro s k rest hinv
  refine ⟨fun hi => ⟨fun hv hk => ?_, fun hk h => ?_, fun hk => ?_⟩,
    fun hi => ⟨fun hv hk => ?_, fun hk h => ?_, fun hk => ?_⟩, fun hi => ⟨fun hv => ?_, fun hv => ?_⟩⟩ <;>
    refine (step_access hinv.emission hi).trans ?_
  · exact State.observe_ok (readOutput_ok hinv.pboListed hinv.pbLen hv hk)
  · exact State.observe_error (readOutput_unspecified hk h)
  · exact State.observe_error (readOutput_outOfSpace hk)
  · exact State.observe_ok (readOutput_ok hinv.cfoListed hinv.cfLen hv hk)
  · exact State.observe_error (readOutput_unspecified hk h)
  · exact State.observe_error (readOutput_outOfSpace hk)
  · exact State.observe_ok ⟨_, if_pos hv⟩
  · exact State.observe_error (if_neg (by simp [hv]))

end Sys2Proof.Machine
end

section
/-! PROOFS. What one step can do to a unit: the StatusFrame registers (R188), SIB and LIM (R171), the record of errors
(R205). -/

namespace Sys2Proof.Machine

theorem isPbe_toInstr (e : Emission) : isPbe e.toInstr = true := by cases e <;> rfl

/-- Settles O50, unit by unit. -/
theorem operationsNeverWriteSibOrLim : Obligations.OperationsNeverWriteSibOrLim := by
  intro i s t h
  rcases unit_cases i with hi | hi | rfl
  · rw [(exec_cfe_onlyCfe i s t hi h).sfd]
    exact ⟨rfl, rfl⟩
  · rw [(exec_pbe_onlyPbe i s t hi h).sfd]
    exact ⟨rfl, rfl⟩
  · have ho := exec_sfParse_onlySfd s t h
    exact ⟨ho.sib, ho.lim⟩

theorem exec_errors_grow {i : Instr} {s t : State} (h : exec i s = .next t) :
    ∃ more, t.errors = s.errors ++ more ∧ more.length ≤ 1 := by
  rcases errorsAreRaisedOnlyByTheirOperations i s t h with he | ⟨_, he, _⟩ | ⟨_, e, _, he⟩
  · exact ⟨[], by rw [he, List.append_nil], Nat.zero_le 1⟩
  · exact ⟨_, he, Nat.le_refl 1⟩
  · exact ⟨_, he, Nat.le_refl 1⟩

theorem host_errors {s t : State} {x : HostAccess} (h : s.host x = .next t) : t.errors = s.errors := by
  rcases host_cases s t x h with ⟨_, _, _, _, rfl⟩ | ⟨_, _, rfl⟩ | ⟨_, _, rfl⟩ | ⟨_, rfl⟩ | rfl <;> rfl

/-- Settles O53: an instruction adds at most one error, and the host none. -/
theorem errorRecordOnlyGrows : Obligations.ErrorRecordOnlyGrows := by
  intro s t h
  rcases step_cases s t h with ⟨e, _, hx⟩ | ⟨_, ⟨_, rfl⟩ | ⟨r, rest, i, _, _, hx⟩ | ⟨x, rest, _, hx⟩⟩
  · exact (exec_errors_grow hx :)
  · exact ⟨[], (List.append_nil _).symm, Nat.zero_le 1⟩
  · exact (exec_errors_grow hx :)
  · exact ⟨[], (host_errors hx).trans (List.append_nil _).symm, Nat.zero_le 1⟩

theorem exists_frameBytes {bs : List Byte} (h : bs.length = 32) : ∃ f, bs = frameBytes f := by
  refine ⟨fun k => bs.getD k 0#8, List.ext_getElem? fun k => ?_⟩
  by_cases hk : k < 32
  · rw [frameBytes_getElem? _ hk, List.getD_eq_getElem?_getD, List.getElem?_eq_getElem (by omega)]
    rfl
  · rw [List.getElem?_eq_none (by omega), List.getElem?_eq_none (by simpa using hk)]

/-- The field registers stay, or `SF.PARSE` made them the fields of the frame at CUR. -/
theorem exec_frame_cases {i : Instr} {s t : State} (h : exec i s = .next t) :
    t.sfd.frame = s.sfd.frame ∨ (i = .sfParse ∧ t.sfd.valid = true ∧
      ∃ f, s.FrameAt f ∧ (∀ k, k < 7 → f k = magic k) ∧ t.sfd.frame.Holds f) := by
  rcases unit_cases i with hi | hi | rfl
  · exact .inl (congrArg Sfd.frame (exec_cfe_onlyCfe i s t hi h).sfd)
  · exact .inl (congrArg Sfd.frame (exec_pbe_onlyPbe i s t hi h).sfd)
  · obtain ⟨hw, ⟨e, he, rfl⟩ | ⟨bs, ha, hbs, hm, rfl⟩⟩ := exec_sfParse_next s t h
    · exact .inl (s.rejectFrame_failed e hw.cur he).frame
    · obtain ⟨hl, hread⟩ := Memory.readRange_ok _ _ _ _ hbs
      obtain ⟨f, rfl⟩ := exists_frameBytes hl
      refine .inr ⟨rfl, rfl, f, ⟨hw, ha, fun k hk => ?_⟩, firstMismatch_eq_none hm, extract_holds f⟩
      rw [hread k hk, frameBytes_getElem? f hk]

theorem host_frame {s t : State} {x : HostAccess} (h : s.host x = .next t) :
    t.sfd.frame = s.sfd.frame ∨ x = .reset := by
  rcases host_cases s t x h with ⟨_, _, _, _, rfl⟩ | ⟨_, _, rfl⟩ | ⟨_, _, rfl⟩ | ⟨hr, _⟩ | rfl
  · exact .inl rfl
  · exact .inl rfl
  · exact .inl rfl
  · exact .inr hr
  · exact .inl rfl

/-- Settles O49: of the instructions only `SF.PARSE` writes the field registers, of the accesses only the reset. -/
theorem statusFieldsChangeOnlyByASuccessfulParse : Obligations.StatusFieldsChangeOnlyByASuccessfulParse := by
  intro s t h
  rcases step_cases s t h with ⟨e, _, hx⟩ | ⟨_, ⟨_, rfl⟩ | ⟨r, rest, i, hi, hd, hx⟩ | ⟨x, rest, hi, hx⟩⟩
  · exact .inl (congrArg Sfd.frame (exec_pbe_onlyPbe _ _ t (isPbe_toInstr e) hx).sfd)
  · exact .inl rfl
  · rcases exec_frame_cases hx with hf | ⟨rfl, hv, f, hat, hm, hf⟩
    · exact .inl hf
    · exact .inr (.inr ⟨r, rest, f, hi, hd, hv, ⟨⟨hat.window.cur, hat.window.lim⟩, hat.avail, hat.bytes⟩, hm, hf⟩)
  · rcases host_frame hx with hf | rfl
    · exact .inl hf
    · exact .inr (.inl ⟨rest, hi⟩)

end Sys2Proof.Machine
end

section
/-! PROOFS. R22, R25, R27, R28, R113, R203: the invariant. It is one condition a unit, kept by that unit's operations,
and the empty emission; `PB.ENCODE` and a CFE operation establish theirs from any state. -/

namespace Sys2Proof.Machine

/-! ### One condition a unit -/

/-- PBE's part of the invariant. -/
structure Pbe.Ok (p : Pbe) : Prop where
  listed : p.pbo.map Prod.fst = List.range p.len
  lenMax : p.len ≤ 49
  lenMin : p.valid = true → 2 ≤ p.len
  fbLen : p.fb = true → p.len = 49
  span : p.s < p.i ∧ p.i ≤ 48
  two : p.mode = .lit → p.s + 2 ≤ p.i
  pbiLen : p.pbi.length < 65536

/-- CFE's part of the invariant. -/
structure Cfe.Ok (c : Cfe) : Prop where
  listed : c.cfo.map Prod.fst = List.range c.len
  lenMax : c.len ≤ 64
  errCode : c.err = 0#2 ∨ c.err = 1#2 ∧ c.valid = false ∧ c.len = 0
  cfiLen : c.cfi.length < 65536

/-- SFD's part of the invariant but SIB. -/
structure Sfd.RegsOk (d : Sfd) : Prop where
  unused : d.frame.ei &&& 0x20A0#16 = 0#16
  errCode : d.err = 0#2 ∨ d.valid = false ∧ (d.err = 2#2 ∨ d.err = 3#2)
  info : d.err = 2#2 ∨ d.ekind = 0#2 ∧ d.eoff = 0#3 ∧ d.eexp = 0#8 ∧ d.eact = 0#8
  kind : d.err = 2#2 → d.ekind ≠ 0#2 ∧ d.eoff.toNat ≤ 6 ∧ d.eact ≠ d.eexp

/-- SIB is in canonical form inside SIB_SIZE. -/
structure Memory.SibOk (m : Memory) : Prop where
  wf : Memory.wf m
  inside : ∀ c, c ∈ m → c.1 < Config.sibSize

theorem State.inv_iff (s : State) :
    s.Inv ↔ s.emission = none ∧ s.pbe.Ok ∧ s.cfe.Ok ∧ s.sfd.sib.SibOk ∧ s.sfd.RegsOk := by
  constructor
  · intro h
    exact ⟨h.emission, ⟨h.pboListed, h.pbLen, h.pbMin, h.pbFb, h.pbSpan, h.pbMode, h.pbiLen⟩,
      ⟨h.cfoListed, h.cfLen, h.cfErr, h.cfiLen⟩, ⟨h.sibWf, h.sibIn⟩, ⟨h.sfUnused, h.sfErr, h.sfInfo, h.sfKind⟩⟩
  · rintro ⟨he, hp, hc, hm, hd⟩
    exact ⟨he, hp.listed, hp.lenMax, hp.lenMin, hp.fbLen, hp.span, hp.two, hp.pbiLen, hc.listed, hc.lenMax,
      hc.errCode, hc.cfiLen, hm.wf, hm.inside, hd.unused, hd.errCode, hd.info, hd.kind⟩

/-- Settles O58, register by register. -/
theorem invariantHoldsAtReset : Obligations.InvariantHoldsAtReset :=
  State.reset.inv_iff.mpr ⟨rfl,
    ⟨rfl, by decide, by decide, by decide, by decide, by decide, by decide⟩,
    ⟨rfl, by decide, .inl rfl, by decide⟩, ⟨Memory.wf_nil, fun _ h => nomatch h⟩,
    ⟨by decide, .inl rfl, .inr ⟨rfl, rfl, rfl, rfl⟩, by decide⟩⟩

/-! ### PBE -/

/-- What every pass of the scan keeps. -/
structure Pbe.ScanOk (p : Pbe) : Prop where
  listed : p.pbo.map Prod.fst = List.range p.len
  lenMax : p.len ≤ 49
  lt : p.s < p.i
  top : p.i ≤ 48
  two : p.mode = .lit → p.s + 2 ≤ p.i

theorem Pbe.start_scanOk (p : Pbe) (input : List Byte) : (p.start input).ScanOk :=
  ⟨rfl, Nat.zero_le 49, Nat.zero_lt_one, (by omega : 1 ≤ 48), nofun⟩

theorem Pbe.scanStep_listed {p : Pbe} (h : p.pbo.map Prod.fst = List.range p.len) (hl : p.len ≤ 49) :
    p.scanStep.pbo.map Prod.fst = List.range p.scanStep.len ∧ p.scanStep.len ≤ 49 := by
  rcases p.scanStep_cases with ⟨_, _, e⟩ | ⟨_, _, e⟩ | ⟨_, _, e⟩ | ⟨_, _, _, e⟩ | ⟨_, _, _, e⟩ <;> rw [e]
  · exact ⟨h, hl⟩
  · exact ⟨h, hl⟩
  · exact ⟨h, hl⟩
  · exact p.emit_listed _ h hl
  · exact p.emit_listed _ h hl

theorem Pbe.ScanOk.scan {p : Pbe} (h : p.ScanOk) (fuel : Nat) : (Pbe.scan fuel p).ScanOk := by
  refine Pbe.scan_induct Pbe.ScanOk fuel p (fun q hi _ hq => ?_) h
  obtain ⟨hlisted, hmax⟩ := Pbe.scanStep_listed hq.listed hq.lenMax
  obtain ⟨hlt, htwo⟩ := q.scanStep_span hq.lt hq.two
  exact ⟨hlisted, hmax, hlt, by rw [Pbe.scanStep_i]; exact hi, htwo⟩

theorem Pbe.ScanOk.emit {p : Pbe} (h : p.ScanOk) (record : List Byte) : (p.emit record).ScanOk := by
  obtain ⟨hlisted, hmax⟩ := p.emit_listed record h.listed h.lenMax
  refine ⟨hlisted, hmax, ?_, ?_, ?_⟩
  · rw [Pbe.emit_s, Pbe.emit_i]; exact h.lt
  · rw [Pbe.emit_i]; exact h.top
  · rw [Pbe.emit_mode, Pbe.emit_s, Pbe.emit_i]; exact h.two

theorem Pbe.ScanOk.flush {p : Pbe} (h : p.ScanOk) : p.flush.ScanOk := by
  rcases p.flush_cases with ⟨_, e⟩ | ⟨_, _, e⟩ | ⟨_, _, e⟩ <;> rw [e]
  · exact h
  · exact h.emit _
  · exact h.emit _

theorem Pbe.ScanOk.setValid {p : Pbe} (h : p.ScanOk) : Pbe.ScanOk { p with valid := true } :=
  ⟨h.listed, h.lenMax, h.lt, h.top, h.two⟩

theorem Pbe.encode_scanOk (p : Pbe) (input : List Byte) : (p.encode input).ScanOk := by
  unfold Pbe.encode
  exact ((p.start_scanOk input).scan 47).flush.setValid

/-- `PB.ENCODE` establishes PBE's part of the invariant, whatever PBE held. -/
theorem Pbe.encode_ok (p : Pbe) {input : List Byte} (hin : input.length < 65536) : (p.encode input).Ok := by
  have hs := p.encode_scanOk input
  have hlen := p.encode_len input
  refine ⟨hs.listed, hs.lenMax, fun _ => ?_, fun hf => ?_, ⟨hs.lt, hs.top⟩, hs.two, ?_⟩
  · rw [hlen]
    exact (encodeLine_length _).1
  · rw [(p.encode_encodes input).fb, decide_eq_true_eq] at hf
    rw [hlen, encodeLine_eq_guarded, guarded_of_lt _ hf]
    simp
  · rw [Pbe.encode_pbi]
    exact hin

/-! ### CFE -/

theorem State.answerFrame_ok {s : State} {f : List Byte} (hf : f.length ≤ 64) (hc : s.cfe.cfi.length < 65536) :
    (s.answerFrame f).cfe.Ok := by
  refine ⟨?_, ?_, .inl (by simp), by simpa using hc⟩
  · rw [State.answerFrame_cfo, State.answerFrame_len, Memory.listed_writeAll f [] 0 rfl, Nat.zero_add]
  · rw [State.answerFrame_len]
    exact hf

theorem State.answerInvalid_ok {s : State} (hc : s.cfe.cfi.length < 65536) : s.answerInvalid.cfe.Ok :=
  ⟨rfl, Nat.zero_le 64, .inr ⟨rfl, rfl, rfl⟩, hc⟩

theorem cfiAfter_length {i : Instr} {s : State} (hwf : i.WellFormed) (hc : s.cfe.cfi.length < 65536) :
    (cfiAfter i s).length < 65536 := by
  cases i with
  | cfRaster comp line => exact checkStream_eq_nil_iff.mp (List.append_eq_nil_iff.mp hwf).2
  | _ => exact hc

theorem exec_cfe_ok {i : Instr} {s t : State} (hi : isCfe i = true) (hwf : i.WellFormed)
    (hc : s.cfe.cfi.length < 65536) (h : exec i s = .next t) : t.cfe.Ok := by
  have hcfi := cfiAfter_length hwf hc
  rw [exec_cfe i s hi, Host.Outcome.next.injEq] at h
  subst h
  cases hf : layout i with
  | some f => exact State.answerFrame_ok (layout_length_le i f hi hf) hcfi
  | none => exact State.answerInvalid_ok hcfi

/-! ### SFD -/

/-- Dropping the unused bits leaves them 0 (R180). -/
theorem extract_unused (f : List Byte) : (extract f).ei &&& 0x20A0#16 = 0#16 := by
  show Half.ofBytes _ _ &&& errorInfoMask &&& 0x20A0#16 = 0#16
  rw [BitVec.and_assoc, show errorInfoMask &&& 0x20A0#16 = 0#16 by decide, BitVec.and_zero]

theorem State.acceptFrame_ok (s : State) (f : List Byte) : (s.sfdEntry.acceptFrame f).sfd.RegsOk :=
  ⟨extract_unused f, .inl rfl, .inr ⟨rfl, rfl, rfl, rfl⟩, nofun⟩

theorem State.rejectFrame_underflow_ok {s : State} (h : s.sfd.frame.ei &&& 0x20A0#16 = 0#16) :
    (s.sfdEntry.rejectFrame .bufferUnderflow).sfd.RegsOk :=
  ⟨h, .inr ⟨rfl, .inr rfl⟩, .inr ⟨rfl, rfl, rfl, rfl⟩, nofun⟩

theorem State.rejectFrame_format_ok {s : State} (h : s.sfd.frame.ei &&& 0x20A0#16 = 0#16) {kind : FormatKind}
    {j : Nat} {expected actual : Byte} (hj : j < 7) (hne : actual ≠ expected) :
    (s.sfdEntry.rejectFrame (.formatError kind j expected actual)).sfd.RegsOk := by
  refine ⟨h, .inr ⟨rfl, .inl rfl⟩, .inl rfl, fun _ => ⟨?_, ?_, hne⟩⟩
  · show kind.code ≠ 0#2
    cases kind <;> decide
  · show (BitVec.ofNat 3 j).toNat ≤ 6
    rw [BitVec.toNat_ofNat]
    omega

theorem exec_sfParse_ok {s t : State} (hu : s.sfd.frame.ei &&& 0x20A0#16 = 0#16) (h : exec .sfParse s = .next t) :
    t.sfd.RegsOk := by
  have h : execSfParse s = .next t := h
  rcases execSfParse_cases s with ⟨_, e⟩ | ⟨_, _, e⟩ | ⟨_, _, ⟨k, _, e⟩ | ⟨f, _, ⟨er, her, e⟩ | ⟨_, e⟩⟩⟩ <;>
    rw [e] at h
  · cases h
  · obtain rfl := Host.Outcome.next.inj h
    exact State.rejectFrame_underflow_ok hu
  · cases h
  · obtain rfl := Host.Outcome.next.inj h
    obtain ⟨kind, j, x, a, rfl, _, hj, _, _, hne, _⟩ := firstMismatch_isFormat _ _ _ _ her
    exact State.rejectFrame_format_ok hu (by simpa [headerChecks] using hj) hne
  · obtain rfl := Host.Outcome.next.inj h
    exact s.acceptFrame_ok f

/-- The host's write keeps SIB canonical and inside. -/
theorem Memory.SibOk.writeAll {m : Memory} (h : m.SibOk) {start : Nat} {data : List Byte}
    (hd : start + data.length ≤ Config.sibSize) : (Memory.writeAll m start data).SibOk := by
  refine ⟨Memory.wf_writeAll data m start h.wf, fun c hc => ?_⟩
  rcases Memory.mem_writeAll data m start c hc with ⟨_, hlt⟩ | hm
  · exact Nat.lt_of_lt_of_le hlt hd
  · exact h.inside c hm

/-! ### The step -/

/-- An operation keeps the invariant: its unit's part by its own lemma, the other parts by its frame. -/
theorem exec_keeps_inv {i : Instr} {s t : State} (hinv : s.Inv) (hwf : i.WellFormed)
    (hop : isCfe i = true ∨ (∃ input, i = .pbEncode input) ∨ i = .sfParse) (h : exec i s = .next t) : t.Inv := by
  obtain ⟨he, hp, hc, hm, hd⟩ := s.inv_iff.mp hinv
  rcases hop with hi | ⟨input, rfl⟩ | rfl
  · have ho := exec_cfe_onlyCfe i s t hi h
    rw [State.inv_iff, ho.emission, ho.pbe, ho.sfd]
    exact ⟨he, hp, exec_cfe_ok hi hwf hc.cfiLen h, hm, hd⟩
  · obtain rfl := Host.Outcome.next.inj h
    exact (State.inv_iff _).mpr ⟨he, Pbe.encode_ok _ (checkStream_eq_nil_iff.mp hwf), hc, hm, hd⟩
  · have ho := exec_sfParse_onlySfd s t h
    rw [State.inv_iff, ho.emission, ho.pbe, ho.cfe, ho.sib]
    exact ⟨he, hp, hc, hm, exec_sfParse_ok hd.unused h⟩

/-- SIB, CUR and LIM are no concern of the registers of the response. -/
theorem Sfd.RegsOk.withWindow {d : Sfd} (h : d.RegsOk) (sib : Memory) (cur lim : Nat) :
    Sfd.RegsOk { d with sib := sib, cur := cur, lim := lim } := ⟨h.unused, h.errCode, h.info, h.kind⟩

/-- An access of the host keeps the invariant. -/
theorem host_keeps_inv {s t : State} {x : HostAccess} (hinv : s.Inv) (h : s.host x = .next t) : t.Inv := by
  obtain ⟨he, hp, hc, hm, hd⟩ := s.inv_iff.mp hinv
  rcases host_cases s t x h with ⟨start, data, _, hfit, rfl⟩ | ⟨_, _, rfl⟩ | ⟨_, _, rfl⟩ | ⟨_, rfl⟩ | rfl
  · exact (State.inv_iff _).mpr ⟨he, hp, hc, hm.writeAll hfit, hd.withWindow _ _ _⟩
  · exact (State.inv_iff _).mpr ⟨he, hp, hc, hm, hd.withWindow _ _ _⟩
  · exact (State.inv_iff _).mpr ⟨he, hp, hc, hm, hd.withWindow _ _ _⟩
  · obtain ⟨_, hp0, hc0, hm0, hd0⟩ := State.reset.inv_iff.mp invariantHoldsAtReset
    exact (State.inv_iff _).mpr ⟨rfl, hp0, hc0, hm0, hd0⟩
  · exact hinv

/-- The invariant says nothing of what is lined up. -/
theorem State.Inv.withInbox {s : State} (h : s.Inv) (inbox : List HostAction) : State.Inv { s with inbox := inbox } :=
  (State.inv_iff _).mpr (s.inv_iff.mp h)

/-- Settles O59: a decoded request is a well-formed operation, which keeps the invariant, and so does an access. -/
theorem everyStepKeepsTheInvariant : Obligations.EveryStepKeepsTheInvariant := by
  intro s t hinv h
  rcases step_cases s t h with ⟨e, he, _⟩ | ⟨_, ⟨_, rfl⟩ | ⟨r, rest, i, _, hd, hx⟩ | ⟨x, rest, _, hx⟩⟩
  · rw [hinv.emission] at he
    cases he
  · exact hinv
  · obtain ⟨hwf, _, hop⟩ := decodedRequestIsWellFormedAndUnique r i hd
    exact exec_keeps_inv (hinv.withInbox rest) hwf hop hx
  · exact host_keeps_inv (hinv.withInbox rest) hx

/-! ### What PB_VALID promises (R22) -/

/-- The promise is about PBE alone. -/
theorem State.PbeResult.of_pbe_eq {s t : State} (h : s.PbeResult) (hp : t.pbe = s.pbe) : t.PbeResult := by
  unfold PbeResult pbResponse at h ⊢
  rw [hp]
  exact h

theorem pbeResult_encode (s : State) (input : List Byte) :
    State.PbeResult { s with pbe := s.pbe.encode input } := by
  intro _
  refine ⟨?_, ?_, ?_⟩
  · show (s.pbe.encode input).line = normalise (s.pbe.encode input).pbi
    rw [Pbe.encode_line, Pbe.encode_pbi]
  · rw [pbResponse_encode]
    show _ = some (encodeLine (s.pbe.encode input).line)
    rw [Pbe.encode_line]
  · show (s.pbe.encode input).fb = decide (49 < (normalPath (s.pbe.encode input).line).length)
    rw [(s.pbe.encode_encodes input).fb, Pbe.encode_line]

theorem exec_keeps_pbeResult {i : Instr} {s t : State} (hs : s.PbeResult)
    (hop : isCfe i = true ∨ (∃ input, i = .pbEncode input) ∨ i = .sfParse) (h : exec i s = .next t) :
    t.PbeResult := by
  rcases hop with hi | ⟨input, rfl⟩ | rfl
  · exact hs.of_pbe_eq (exec_cfe_onlyCfe i s t hi h).pbe
  · obtain rfl := Host.Outcome.next.inj h
    exact pbeResult_encode s input
  · exact hs.of_pbe_eq (exec_sfParse_onlySfd s t h).pbe

theorem host_keeps_pbeResult {s t : State} {x : HostAccess} (hs : s.PbeResult) (h : s.host x = .next t) :
    t.PbeResult := by
  rcases host_cases s t x h with ⟨_, _, _, _, rfl⟩ | ⟨_, _, rfl⟩ | ⟨_, _, rfl⟩ | ⟨_, rfl⟩ | rfl
  · exact hs.of_pbe_eq rfl
  · exact hs.of_pbe_eq rfl
  · exact hs.of_pbe_eq rfl
  · exact nofun
  · exact hs

/-- Settles O60: `PB.ENCODE` makes the promise true, a reset clears PB_VALID, and nothing else a step does without an
emission touches PBE. -/
theorem validOutputStaysACompletedEncoding : Obligations.ValidOutputStaysACompletedEncoding := by
  intro s t hs hn h
  rcases step_cases s t h with ⟨e, he, _⟩ | ⟨_, ⟨_, rfl⟩ | ⟨r, rest, i, _, hd, hx⟩ | ⟨x, rest, _, hx⟩⟩
  · rw [hn] at he
    cases he
  · exact hs
  · have hop := (decodedRequestIsWellFormedAndUnique r i hd).2.2
    have hr : State.PbeResult { s with inbox := rest } := hs.of_pbe_eq rfl
    exact exec_keeps_pbeResult hr hop hx
  · have hr : State.PbeResult { s with inbox := rest } := hs.of_pbe_eq rfl
    exact host_keeps_pbeResult hr hx

end Sys2Proof.Machine
end

section
/-! PROOFS. The table words (log entries 3 and 8): what a word decodes to is well formed, so that the request it is
presented as decodes back to it and the next step runs it. -/

namespace Sys2Proof

/-- Settles O4, each of the eight words by running the decoder on it. -/
theorem tableWordsDecodeToTheirOperations : Obligations.TableWordsDecodeToTheirOperations := by
  unfold Obligations.TableWordsDecodeToTheirOperations
  decide

/-! ### Whatever a reader answers is well formed -/

/-- What is read, if anything, is as said. -/
def AnyResult {α : Type} (P : α → Prop) (x : Option α) : Prop := ∀ a, x = some a → P a

section
variable {α : Type} {P : α → Prop}

theorem AnyResult.none : AnyResult P none := nofun

theorem AnyResult.some {a : α} (h : P a) : AnyResult P (some a) := by
  rintro _ ⟨⟩
  exact h

theorem AnyResult.map {β : Type} {f : β → α} {x : Option β} (h : ∀ b, P (f b)) : AnyResult P (x.map f) := by
  intro a ha
  obtain ⟨b, _, rfl⟩ := Option.map_eq_some_iff.mp ha
  exact h b

theorem AnyResult.ite {c : Prop} [Decidable c] {x y : Option α} (hx : c → AnyResult P x) (hy : AnyResult P y) :
    AnyResult P (if c then x else y) := by
  split
  · next h => exact hx h
  · exact hy

end

theorem wellFormed_raster_none {line : List Byte} (h : line.length < 65536) :
    (Instr.cfRaster (.member .none) line).WellFormed := checkStream_eq_nil_iff.mpr h

theorem wellFormed_pbRecRun {n : Nat} (v : Byte) (h1 : 1 ≤ n) (h2 : n ≤ 48) : (Instr.pbRecRun n v).WellFormed :=
  if_pos ⟨h1, h2⟩

theorem wellFormed_pbRecLit {n a : Nat} (h1 : 1 ≤ n) (h2 : a + n ≤ 48) : (Instr.pbRecLit n a).WellFormed := by
  have hc : checkCount n = [] := if_pos ⟨h1, by show n ≤ 48; omega⟩
  rw [Instr.WellFormed, Instr.check, hc]
  exact if_pos h2

/-- The branches of `readFrame` in their order: ESC with its second and third byte, then the single characters. -/
theorem readFrame_wellFormed (image : List Byte) :
    AnyResult (fun p : Instr × Nat => p.1.WellFormed) (readFrame image) := by
  unfold readFrame
  split
  · next b0 b1 b2 b3 b4 b5 b6 b7 tail =>
    refine .ite (fun _ => ?esc) (.ite (fun _ => ?capG) ?single)
    case esc =>
      refine .ite (fun _ => .some rfl) (.ite (fun _ => ?_) .none)
      refine .ite (fun _ => .some rfl) (.ite (fun _ => .map fun _ => rfl) (.ite (fun _ => .some rfl)
        (.ite (fun _ => .map fun _ => rfl) (.ite (fun _ => .map fun _ => rfl) (.ite (fun _ => ?_) .none)))))
      split
      · next i hi =>
        obtain ⟨_, _, _, _, _, hwf, _⟩ := write_of_readPrintInfo hi
        exact .ite (fun _ => .some hwf) .none
      · exact .none
    case capG =>
      refine .ite (fun hn => .some (wellFormed_raster_none ?_)) .none
      exact Nat.lt_of_le_of_lt (List.length_take_le _ _) (Nat.lt_of_le_of_lt hn.1 (by decide))
    case single =>
      exact .ite (fun _ => .some rfl) (.ite (fun _ => .some rfl) (.ite (fun _ => .some rfl)
        (.ite (fun _ => .some rfl) (.ite (fun _ => .map fun _ => rfl) .none))))
  · exact .none

/-- The branches of `readPackBits` in their order: a run, the fallback, a literal, several records. -/
theorem readPackBits_wellFormed (n : Nat) (image : List Byte) :
    AnyResult Instr.WellFormed (readPackBits n image) := by
  unfold readPackBits
  split
  · next u v tail =>
    have hu : u.toNat < 256 := u.isLt
    refine .ite (fun h => .some ?run) (.ite (fun _ => .some rfl) (.ite (fun h => .some ?lit) ?records))
    case run => exact wellFormed_pbRecRun v (by omega) (by omega)
    case lit => exact wellFormed_pbRecLit (by omega) (by omega)
    case records =>
      split
      · next line _ =>
        refine .ite (fun hl => .some (checkStream_eq_nil_iff.mpr ?_)) .none
        rw [hl]
        decide
      · exact .none
  · exact .none

theorem readLayout_wellFormed (n : Nat) (image : List Byte) : AnyResult Instr.WellFormed (readLayout n image) := by
  unfold readLayout
  refine .ite (fun _ => .some rfl) ?_
  split
  · next i len hr =>
    exact .ite (fun _ => .some (readFrame_wellFormed image _ hr)) (readPackBits_wellFormed n image)
  · exact .ite (fun _ => .some rfl) (.ite (fun _ => .none) (readPackBits_wellFormed n image))

theorem zeroRecord_wellFormed (nbits w : Nat) : AnyResult Instr.WellFormed (zeroRecord nbits w) :=
  .ite (fun _ => .some rfl) (.ite (fun _ => .some rfl) .none)

theorem decodeTableWord_wellFormed {nbits w : Nat} {i : Instr} (h : decodeTableWord nbits w = some i) :
    i.WellFormed := by
  unfold decodeTableWord at h
  split at h
  · next j hz =>
    obtain rfl := Option.some.inj h
    exact zeroRecord_wellFormed nbits w _ hz
  · exact readLayout_wellFormed _ _ _ h

end Sys2Proof

namespace Sys2Proof.Machine

/-- A record row is an emission's instruction. -/
theorem exists_emission_of_encode_eq_none {i : Instr} (h : encode i = none) : ∃ e : Emission, i = e.toInstr := by
  rcases (encode_eq_none_iff i).mp h with ⟨n, v, rfl⟩ | ⟨n, a, rfl⟩ | rfl
  · exact ⟨.run n v, rfl⟩
  · exact ⟨.lit n a, rfl⟩
  · exact ⟨.fallback, rfl⟩

/-- The next step runs the instruction presented: a request decodes back to it, a record row stands by itself. -/
theorem step_present {i : Instr} (s : State) (hwf : i.WellFormed) :
    step (s.present i) = exec i { s with emission := none } := by
  cases he : encode i with
  | some r =>
    rw [s.present_operation i r he]
    exact step_request rfl rfl (decode_of_encode hwf he)
  | none =>
    obtain ⟨e, rfl⟩ := exists_emission_of_encode_eq_none he
    rw [s.present_record e]
    exact step_emission rfl

/-- Settles O9: the word is presented as the instruction it decodes to. -/
theorem tableWordIsRunByTheNextStep : Obligations.TableWordIsRunByTheNextStep := by
  intro s nbits w i h
  have hp : s.withFetchWord nbits w = (s.placeImage i (tableImage nbits w)).present i := by
    simp only [State.withFetchWord, State.placeWord, h]
  rw [hp]
  exact step_present _ (decodeTableWord_wellFormed h)

end Sys2Proof.Machine
end
